-- ==== Sys2Proof/Word.lean ====
section
/-!
DEFINITION. The one word of the machine: a byte. Every register, scancode and character is 8 bits wide
(spec 00_scope.md R3, R7; 20_memory.md R31). Bit `i` has weight `2 ^ i` (R6), which is `BitVec`'s own numbering.
-/

namespace Sys2Proof

/-- One byte, an unsigned number 0..255 (00_scope.md R7). -/
abbrev Byte := BitVec 8

/-- The host's request word, 11 bits (30_encoding.md R55). -/
abbrev ReqWord := BitVec 11

/-- The block's response word, 10 bits (30_encoding.md R56). -/
abbrev RspWord := BitVec 10

end Sys2Proof
end

