-- ==== Sys2Proof/Config.lean ====
section
/-!
DEFINITION. The parameters of the model (spec 00_scope.md R3) and its free values. A constant without a body is a
value the spec leaves open: nothing in Lean can evaluate it, so what is proved holds whatever it is.
-/

namespace Sys2Proof.Config

/-- `BUDGET`, the fixed iteration budget of every polling loop (00_scope.md R3, 10_state.md R14). -/
def budget : Nat := 12000

/-- The environment's answer to port read number `k`, where no answer is written down in the state (20_memory.md R36;
log 2). Free. -/
opaque envAnswer (k : Nat) : Byte

/-- `MAP` as the host supplies it at reset (00_scope.md R3, 10_state.md R20; log 3). Free. -/
opaque scancodeMap (i : Byte) : Byte

/-- The four latches before the first `INIT` or reset, by number (70_reset_and_hazards.md R171; log 6). Free. -/
opaque powerOnLatch (k : Nat) : Bool

/-- The table bound before the first `INIT` or reset (44_mouse_init.md R144 binds it; log 6). Free. -/
opaque powerOnMap (i : Byte) : Byte

/-- Bits 8..0 of the response word of a timeout, the `k`th time (30_encoding.md R56, 42_poller.md R97; log 11). Free. -/
opaque timeoutBits (k : Nat) : BitVec 9

/-- `STATUS_CMD_PORT` (00_scope.md R3, 20_memory.md R39; log 17). Free. -/
opaque statusCmdPort : Nat

/-- The number from which `dataPort` is made (log 17). Free. -/
opaque otherPort : Nat

/-- `DATA_PORT`: any number but `STATUS_CMD_PORT`'s (20_memory.md R39: the two are different ports; log 17). -/
def dataPort : Nat := if otherPort = statusCmdPort then statusCmdPort + 1 else otherPort

/-- `STALL_UNIT`, in some unit of time (00_scope.md R3, 70_reset_and_hazards.md R184; log 18). Free. -/
opaque stallUnit : Nat

end Sys2Proof.Config
end

