-- ==== Sys2Proof/Syntax.lean ====
section
/-!
DEFINITION. The instruction set: one constructor for each of the sixteen rows of spec/opcode_table.json, in its
order (00_scope.md R2 (a), (c), (d); 30_encoding.md). What the spec calls an instruction of this block is a host
operation (format REQ), a scancode class of XLATE (format SC) or a controller command byte (format CMD).
-/

namespace Sys2Proof

/-- The three formats that have rows in the opcode table (30_encoding.md R50). -/
inductive Format where
  /-- host request word, 11 bits -/
  | req
  /-- scancode byte, 8 bits -/
  | sc
  /-- controller command byte, 8 bits -/
  | cmd
  deriving DecidableEq, Repr

/-- The five command bytes the block writes to the controller (30_encoding.md R54). -/
inductive Command where
  /-- disable-keyboard -/
  | disKbd
  /-- write-output -/
  | wrOut
  /-- enable-keyboard -/
  | enKbd
  /-- disable-mouse -/
  | disMouse
  /-- enable-mouse -/
  | enMouse
  deriving DecidableEq, Repr

/-- The instructions, one constructor per row of the opcode table. `u` is wantUnget, `e` enabled, `raw` the scancode
byte, `r` the release bit, `base` the base code. Fields the spec ignores (30_encoding.md R55) are not kept. -/
inductive Instr where
  | poll (u : Bool)
  | xlate (raw : Byte)
  | setmouse (e : Bool)
  | init
  | scLctrl (r : Bool)
  | scLshift (r : Bool)
  | scRshift (r : Bool)
  | scLalt (r : Bool)
  | scBreak (base : BitVec 7)
  | scCtrlbyte
  | scKey (base : BitVec 7)
  | cmdDiskbd
  | cmdWrout
  | cmdEnkbd
  | cmdDismouse
  | cmdEnmouse
  deriving DecidableEq, Repr

/-- The format of an instruction's row. -/
def Instr.format : Instr → Format
  | .poll _ => .req
  | .xlate _ => .req
  | .setmouse _ => .req
  | .init => .req
  | .scLctrl _ => .sc
  | .scLshift _ => .sc
  | .scRshift _ => .sc
  | .scLalt _ => .sc
  | .scBreak _ => .sc
  | .scCtrlbyte => .sc
  | .scKey _ => .sc
  | .cmdDiskbd => .cmd
  | .cmdWrout => .cmd
  | .cmdEnkbd => .cmd
  | .cmdDismouse => .cmd
  | .cmdEnmouse => .cmd

/-- How many bytes an instruction of this format takes where the model stores it (log 9: the 11-bit request word
takes two). -/
def Format.byteCount : Format → Nat
  | .req => 2
  | .sc => 1
  | .cmd => 1

/-- Pseudo-operation `PRESS k` (30_encoding.md R62). -/
def Instr.press (k : BitVec 7) : Instr := .xlate (k.setWidth 8)

/-- Pseudo-operation `RELEASE k` (30_encoding.md R62). -/
def Instr.release (k : BitVec 7) : Instr := .xlate (k.setWidth 8 ||| 0x80)

/-- Pseudo-operation `TAP k`: `PRESS k` then `RELEASE k` (30_encoding.md R62). -/
def Instr.tap (k : BitVec 7) : List Instr := [.press k, .release k]

end Sys2Proof
end

