-- ==== Sys2Proof/WellFormed.lean ====
section
/-!
DEFINITION. Which terms of `Instr` stand for an instruction. Only two rows have a field that not every value fits:
`SC.BREAK` and `SC.KEY` come after the rows of higher priority (spec 30_encoding.md R52).
-/

namespace Sys2Proof

/-- The base codes of the four modifier keys: leftCtrl, leftShift, rightShift, leftAlt (10_state.md R11). -/
def modifierCodes : List (BitVec 7) := [0x1d, 0x2a, 0x36, 0x38]

/-- The base codes of `SC.BREAK`: any but a modifier's (30_encoding.md R52, priority 2). -/
def breakBaseOk (base : BitVec 7) : Bool := !modifierCodes.contains base

/-- The base codes of `SC.KEY`: any but a modifier's and 0x00 (30_encoding.md R52, priority 4). -/
def keyBaseOk (base : BitVec 7) : Bool := !modifierCodes.contains base && base != 0

/-- Well-formed instructions: those some word of their format encodes. -/
def Instr.wf : Instr → Bool
  | .poll _ => true
  | .xlate _ => true
  | .setmouse _ => true
  | .init => true
  | .scLctrl _ => true
  | .scLshift _ => true
  | .scRshift _ => true
  | .scLalt _ => true
  | .scBreak base => breakBaseOk base
  | .scCtrlbyte => true
  | .scKey base => keyBaseOk base
  | .cmdDiskbd => true
  | .cmdWrout => true
  | .cmdEnkbd => true
  | .cmdDismouse => true
  | .cmdEnmouse => true

end Sys2Proof
end

