-- ==== Sys2Proof/Decode.lean ====
section
/-!
DEFINITION. The decoder and, after it, the encoder, from spec 30_encoding.md (R50 to R55) and opcode_table.json.
An instruction is stored as a list of bytes, the lowest bits first: one byte for formats SC and CMD, two for REQ,
whose upper five bits are 0 (log 9). The format is known to whoever reads the bytes; it is not in them.
-/

namespace Sys2Proof

/-! ## Scancode bytes (R51, R52) -/

/-- `r`, the release bit of a scancode byte (R51). -/
def scRelease (raw : Byte) : Bool := raw[7]

/-- `base`, the base code of a scancode byte, as the 7-bit field of the encoding (R51). -/
def scBase (raw : Byte) : BitVec 7 := raw.setWidth 7

/-- The scancode class of a byte: the tests of R52 in their order, first match wins. -/
def decodeSc (raw : Byte) : Instr :=
  if scBase raw = 0x1d then .scLctrl (scRelease raw)
  else if scBase raw = 0x2a then .scLshift (scRelease raw)
  else if scBase raw = 0x36 then .scRshift (scRelease raw)
  else if scBase raw = 0x38 then .scLalt (scRelease raw)
  else if scRelease raw then .scBreak (scBase raw)
  else if scBase raw = 0 then .scCtrlbyte
  else .scKey (scBase raw)

/-! ## Command bytes (R54) -/

/-- The code of a command (R54). -/
def Command.code : Command → Byte
  | .disKbd => 0xad
  | .wrOut => 0xd2
  | .enKbd => 0xae
  | .disMouse => 0xa7
  | .enMouse => 0xa8

/-- The command of a code, if it is one of the five (R54). -/
def decodeCommand (code : Byte) : Option Command :=
  if code = 0xad then some .disKbd
  else if code = 0xd2 then some .wrOut
  else if code = 0xae then some .enKbd
  else if code = 0xa7 then some .disMouse
  else if code = 0xa8 then some .enMouse
  else none

/-- The row of a command. -/
def Command.instr : Command → Instr
  | .disKbd => .cmdDiskbd
  | .wrOut => .cmdWrout
  | .enKbd => .cmdEnkbd
  | .disMouse => .cmdDismouse
  | .enMouse => .cmdEnmouse

/-! ## Request words (R55) -/

/-- The operation of a request word: `op` is bits 10..9, `sel` bit 8, `arg` bits 7..0. Every word selects one. -/
def decodeReq (w : ReqWord) : Instr :=
  if w.extractLsb' 9 2 = 0 then .poll (w[8])
  else if w.extractLsb' 9 2 = 1 then .xlate (w.extractLsb' 0 8)
  else if w.extractLsb' 9 2 = 2 then .setmouse (w[8])
  else .init

/-! ## Any bytes -/

/-- Why some bytes are no instruction of a format. -/
inductive DecodeError where
  /-- not as many bytes as the format has -/
  | wrongLength
  /-- format REQ: a bit above bit 10 is set -/
  | requestTooWide
  /-- format CMD: none of the five codes of R54 -/
  | unknownCommand
  deriving DecidableEq, Repr

/-- The instruction that some bytes are in a format, or why they are none. Total on every list of bytes. -/
def decode (f : Format) (bs : List Byte) : Except DecodeError Instr :=
  match f, bs with
  | .req, [lo, hi] =>
    if hi.toNat < 8 then .ok (decodeReq (BitVec.ofNat 11 (hi.toNat * 256 + lo.toNat))) else .error .requestTooWide
  | .sc, [b] => .ok (decodeSc b)
  | .cmd, [b] =>
    match decodeCommand b with
    | some c => .ok c.instr
    | none => .error .unknownCommand
  | _, _ => .error .wrongLength

/-! ## The encoder -/

/-- A request word from its fields (R55). -/
def reqWord (op : BitVec 2) (sel : Bool) (arg : Byte) : ReqWord :=
  BitVec.ofNat 11 (op.toNat * 512 + sel.toNat * 256 + arg.toNat)

/-- A request word as two bytes, the low one first (log 9). -/
def reqBytes (w : ReqWord) : List Byte := [w.extractLsb' 0 8, BitVec.ofNat 8 (w.extractLsb' 8 3).toNat]

/-- A scancode byte from its fields: `base`, or `base | 0x80` for a release (R51, R62). -/
def scByte (r : Bool) (base : BitVec 7) : Byte := if r then base.setWidth 8 ||| 0x80 else base.setWidth 8

/-- The bytes of an instruction in its format, every ignored field 0 (R51, R54, R55, R61). -/
def encode : Instr → List Byte
  | .poll u => reqBytes (reqWord 0 u 0)
  | .xlate raw => reqBytes (reqWord 1 false raw)
  | .setmouse e => reqBytes (reqWord 2 e 0)
  | .init => reqBytes (reqWord 3 false 0)
  | .scLctrl r => [scByte r 0x1d]
  | .scLshift r => [scByte r 0x2a]
  | .scRshift r => [scByte r 0x36]
  | .scLalt r => [scByte r 0x38]
  | .scBreak base => [scByte true base]
  | .scCtrlbyte => [scByte false 0]
  | .scKey base => [scByte false base]
  | .cmdDiskbd => [Command.disKbd.code]
  | .cmdWrout => [Command.wrOut.code]
  | .cmdEnkbd => [Command.enKbd.code]
  | .cmdDismouse => [Command.disMouse.code]
  | .cmdEnmouse => [Command.enMouse.code]

/-! ## A word of the opcode table, whose format is not given -/

/-- The low `n` bytes of a number, lowest first. -/
def bytesOf : Nat → Nat → List Byte
  | 0, _ => []
  | n + 1, w => BitVec.ofNat 8 w :: bytesOf n (w / 256)

/-- The format taken for a word of `nbits` bits: more than eight bits are a request word; a byte is a command if it is
one of the five codes, else a scancode (log 10: the opcode table's words do not carry their format). -/
def tableFormat (nbits w : Nat) : Format :=
  if 8 < nbits then .req
  else match decodeCommand (BitVec.ofNat 8 w) with
    | some _ => .cmd
    | none => .sc

/-- The bytes of a word of the opcode table: `nbits` in whole bytes, lowest first. -/
def tableBytes (nbits w : Nat) : List Byte := bytesOf ((nbits + 7) / 8) w

/-- The instruction the decoder reads from a word of the opcode table. -/
def decodeTableWord (nbits w : Nat) : Option Instr :=
  match decode (tableFormat nbits w) (tableBytes nbits w) with
  | .ok i => some i
  | .error _ => none

end Sys2Proof
end

