-- ==== Sys2Proof/Machine/Table.lean ====
section
/-!
DEFINITION. The table space (spec 20_memory.md R30 (b); 10_state.md R20): a scancode table of 256 one-byte entries,
held as the list of its non-zero entries by rising index. An entry the list does not hold reads as 0, the spec's
"unmapped" (log 4).
-/

namespace Sys2Proof.Machine

/-- A scancode table: pairs of an index and a byte. -/
abbrev Table := List Host.Cell

/-- The canonical form from index `lo` on: indices rise and are below 256, no entry is 0. -/
def Table.wfFrom : Nat → Table → Bool
  | _, [] => true
  | lo, (k, v) :: t => decide (lo ≤ k) && decide (k < 256) && (v != 0) && Table.wfFrom (k + 1) t

/-- The canonical form: equal tables are equal lists. -/
def Table.wf (t : Table) : Bool := Table.wfFrom 0 t

/-- The entry at index `a`; 0 where none is listed. -/
def Table.get : Table → Nat → Byte
  | [], _ => 0
  | (k, v) :: t, a => if k = a then v else Table.get t a

/-- `MAP[i]` (00_scope.md R8). -/
def Table.read (t : Table) (i : Byte) : Byte := t.get i.toNat

/-- The table with `v` at index `a`, in canonical form. -/
def Table.set : Table → Nat → Byte → Table
  | [], a, v => if v = 0 then [] else [(a, v)]
  | (k, w) :: t, a, v =>
    if a < k then (if v = 0 then (k, w) :: t else (a, v) :: (k, w) :: t)
    else if a = k then (if v = 0 then t else (a, v) :: t)
    else (k, w) :: Table.set t a v

/-- The table with `v` at index `i`. -/
def Table.write (t : Table) (i v : Byte) : Table := t.set i.toNat v

/-- The non-zero entries of `f` at the `n` indices from `lo` on. -/
def Table.ofFnFrom (f : Byte → Byte) : Nat → Nat → Table
  | _, 0 => []
  | lo, n + 1 =>
    if f (BitVec.ofNat 8 lo) = 0 then Table.ofFnFrom f (lo + 1) n
    else (lo, f (BitVec.ofNat 8 lo)) :: Table.ofFnFrom f (lo + 1) n

/-- The table of a total function from byte to byte, which is what `MAP` is (10_state.md R20). -/
def Table.ofFn (f : Byte → Byte) : Table := Table.ofFnFrom f 0 256

end Sys2Proof.Machine
end

