-- ==== Sys2Proof/Machine/State.lean ====
section
/-!
DEFINITION. The state of the block as plain data, the reasons a step can stop, and the state after reset. The spec's
own state is the four latches, the bound table and what an operation in flight holds (10_state.md R10, R13, R14,
R15, R20); the host's table, its inputs, the environment's answers, the event trace and the last response stand
beside it as the model's own fields (INVENTORY.md).
-/

namespace Sys2Proof.Machine

/-- ModifierLatchState: the four one-bit latches (10_state.md R10). `true` is "the key is held". -/
structure Latches where
  leftCtrl : Bool
  leftShift : Bool
  rightShift : Bool
  leftAlt : Bool
  deriving DecidableEq, Repr

/-- The two ports (20_memory.md R30). -/
inductive Port where
  /-- reads as the status register, a write goes to the command register -/
  | statusCmd
  /-- the data register -/
  | data
  deriving DecidableEq, Repr

/-- An event of an operation (00_scope.md R4, R8, R9). -/
inductive Event where
  /-- `R(p, v)`: port `p` was read and answered `v` -/
  | read (p : Port) (v : Byte)
  /-- `W(p, v)`: `v` was written to port `p` -/
  | write (p : Port) (v : Byte)
  /-- `S`: one stall of `STALL_UNIT` -/
  | stall
  deriving DecidableEq, Repr

/-- The block's side of the ports: the environment's answers to come, the number of reads so far, and the event trace,
newest event first (20_memory.md R36, 00_scope.md R9; log 2, log 24). -/
structure Bus where
  script : List Byte
  reads : Nat
  log : List Event
  deriving DecidableEq, Repr

/-- What an operation answers the host (30_encoding.md R56). A timeout carries no byte and no flag (42_poller.md R97). -/
inductive Response where
  /-- POLL succeeded: the byte and the mouse flag -/
  | polled (b : Byte) (m : Bool)
  /-- POLL timed out: HardwareTimeout (60_exceptions.md R150) -/
  | timeout
  /-- XLATE: the character, 0 for none -/
  | char (c : Byte)
  /-- SETMOUSE, INIT: success -/
  | ok
  deriving DecidableEq, Repr

/-- The four steps of the unget sequence (42_poller.md R93). -/
inductive UngetStep where
  | disable
  | writeOut
  | payload
  | enable
  deriving DecidableEq, Repr

/-- Who called the `WriteRegister` in flight. -/
inductive Caller where
  /-- SETMOUSE with its operand -/
  | setmouse (e : Bool)
  /-- a step of the unget sequence of a POLL that read byte `b` with mouse flag `m` -/
  | unget (st : UngetStep) (b : Byte) (m : Bool)
  /-- a command row by itself, which only a `Slot` starts (log 10) -/
  | command (c : Command)
  deriving DecidableEq, Repr

/-- An operation in flight: where it stands in its pseudocode and the transient values it holds there (10_state.md R14,
R15). `n` is the budget counter, `snap` the status snapshot. Each position is named after the event that comes next. -/
inductive InFlight where
  /-- POLL, about to read the status -/
  | pollStatus (u : Bool) (n : Nat)
  /-- POLL, OBF was seen in `snap`; about to read the data -/
  | pollData (u : Bool) (n : Nat) (snap : Byte)
  /-- POLL, the pass failed; about to stall -/
  | pollStall (u : Bool) (n : Nat)
  /-- WriteRegister, about to read the status -/
  | writeStatus (k : Caller) (n : Nat)
  /-- WriteRegister, IBF was clear in `snap`; about to write -/
  | writeByte (k : Caller) (n : Nat) (snap : Byte)
  /-- WriteRegister, the pass failed; about to stall -/
  | writeStall (k : Caller) (n : Nat)
  deriving DecidableEq, Repr

/-- What the outside gives the block in one step (log 7). The host has requests only, and so the four operations only
(00_scope.md R2). -/
inductive Input where
  /-- the host issues a request and waits for its response: all of the operation in one step -/
  | call (bytes : List Byte)
  /-- the host issues a request, whose operation goes on by one event in each later step -/
  | issue (bytes : List Byte)
  /-- the reset input (70_reset_and_hazards.md R170) -/
  | reset
  /-- the host writes entry `i` of its own table (20_memory.md R38) -/
  | table (i v : Byte)
  /-- nothing -/
  | idle
  deriving DecidableEq, Repr

/-- A word of the opcode table put before the block from outside the machine, to run one row by itself: the host cannot
(00_scope.md R2), and no input and no step does it (log 10). -/
structure Slot where
  /-- event by event, or all of it in one step -/
  events : Bool
  format : Format
  bytes : List Byte
  deriving DecidableEq, Repr

/-- The state of the machine. -/
structure State where
  /-- the four latches (10_state.md R10) -/
  latches : Latches
  /-- `MAP` as bound at the last INIT (10_state.md R20) -/
  map : Table
  /-- the table the host offers for the next INIT (20_memory.md R38) -/
  hostMap : Table
  /-- the operation in flight, if one is (10_state.md R14) -/
  inFlight : Option InFlight
  /-- the ports and the event trace -/
  bus : Bus
  /-- the inputs to come, one a step -/
  inbox : List Input
  /-- a row placed from outside the machine, if one is (log 10); none at reset and after every step -/
  slot : Option Slot
  /-- the response given in the last step, if one was -/
  rsp : Option Response
  deriving DecidableEq, Repr

/-- The block raises no exception and takes no trap (60_exceptions.md R153): there is no fault. -/
inductive Fault where
  deriving DecidableEq, Repr

/-- Why a step is refused. -/
inductive Refusal where
  /-- Raised by an arm of `exec` for an instruction that has no meaning yet; no arm does so. Safe: the model stops. -/
  | notModelled (mnemonic : String)
  /-- Raised by `step` for a request that arrives while an operation is in flight (60_exceptions.md R162). Safe: the
  model stops where the spec gives no meaning. -/
  | overlappingRequest
  /-- Raised by `step` for bytes that are no encoding of their format (log 9). Safe: the model stops. -/
  | badEncoding (e : DecodeError)
  deriving DecidableEq, Repr

/-- All four latches 0 (10_state.md R24). -/
def Latches.zero : Latches := ⟨false, false, false, false⟩

/-- Right after reset (70_reset_and_hazards.md R170, 10_state.md R24): the latches 0, no operation in flight, `MAP`
bound to the host's table, whose contents are free (log 3). The model's own fields are empty (log 27). -/
def State.reset : State where
  latches := Latches.zero
  map := Table.ofFn Config.scancodeMap
  hostMap := Table.ofFn Config.scancodeMap
  inFlight := none
  bus := { script := [], reads := 0, log := [] }
  inbox := []
  slot := none
  rsp := none

/-- Before the first INIT or reset (70_reset_and_hazards.md R171): the latches and the bound table are free (log 6). -/
def State.powerOn : State :=
  { State.reset with
    latches := ⟨Config.powerOnLatch 0, Config.powerOnLatch 1, Config.powerOnLatch 2, Config.powerOnLatch 3⟩
    map := Table.ofFn Config.powerOnMap }

end Sys2Proof.Machine
end

