-- ==== Sys2Proof/Machine/Flags.lean ====
section
/-!
DEFINITION. The flag-like values of the block: the four bits it decodes from a status byte (spec 30_encoding.md R53,
10_state.md R16) and the one predicate over the latches (43_translator.md R118).
-/

namespace Sys2Proof.Machine

/-- The outputs of the status-register bitfield decoder (30_encoding.md R53). -/
structure StatusBits where
  obf : Bool
  ibf : Bool
  mouse : Bool
  perr : Bool
  deriving DecidableEq, Repr

/-- The status-register bitfield decoder: bits 0, 1, 5, 7; bits 6, 4, 3, 2 are dropped (30_encoding.md R53). -/
def decodeStatus (s : Byte) : StatusBits where
  obf := s[0]
  ibf := s[1]
  mouse := s[5]
  perr := s[7]

/-- `shift = L.leftShift or L.rightShift` (43_translator.md R118). -/
def Latches.shift (l : Latches) : Bool := l.leftShift || l.rightShift

end Sys2Proof.Machine
end

