-- ==== Sys2Proof/Machine/Operands.lean ====
section
/-!
DEFINITION. The derived operands, complete as spec 30_encoding.md R58 lists them, and the constant tables and functions
of the translator (10_state.md R21, 43_translator.md R123).
-/

namespace Sys2Proof.Machine

/-- `base = raw & 0x7f` (43_translator.md R110), as a byte; `r = raw[7]` is `scRelease`. -/
def baseCode (raw : Byte) : Byte := raw &&& 0x7f

/-- The "controller status/ack/error bytes", the source's list as it stands (43_translator.md R116). -/
def controllerBytes : List Byte := [0x00, 0xaa, 0xee, 0xfa, 0xfc, 0xfd, 0xfe, 0xff]

/-- `DIGIT_SHIFT`, ten bytes (10_state.md R21; ASCII values, log 16). -/
def digitShiftTable : List Byte := [0x29, 0x21, 0x40, 0x23, 0x24, 0x25, 0x5e, 0x26, 0x2a, 0x28]

/-- `DIGIT_SHIFT[c - 0x30]` (43_translator.md R119); asked for only where 0x2f < c < 0x3a. -/
def digitShift (c : Byte) : Byte := digitShiftTable.getD (c.toNat - 0x30) 0

/-- `0x2f < c` and `c < 0x3a`, unsigned (43_translator.md R119). -/
def isDigit (c : Byte) : Bool := decide (0x2f < c.toNat) && decide (c.toNat < 0x3a)

/-- `0x60 < c` and `c < 0x7b`, unsigned (43_translator.md R121). -/
def isLower (c : Byte) : Bool := decide (0x60 < c.toNat) && decide (c.toNat < 0x7b)

/-- `UPPER(c) = c - 0x20` (43_translator.md R123); asked for only where `isLower c` (log 15). -/
def upper (c : Byte) : Byte := c - 0x20

/-- The port address of a port (20_memory.md R39, log 17). -/
def Port.address : Port → Nat
  | .statusCmd => Config.statusCmdPort
  | .data => Config.dataPort

/-- The command `SETMOUSE` sends: 0xa8 if `e` = 1 else 0xa7 (44_mouse_init.md R140). -/
def mouseCommand (e : Bool) : Command := if e then .enMouse else .disMouse

end Sys2Proof.Machine
end

