-- ==== Sys2Proof/Machine/Ops.lean ====
section
/-!
DEFINITION. The named operations: port access and stall (spec 00_scope.md R8), the four micro-operations (40_portio.md
R70 to R72, 41_byte_reader.md R80), the poller with its unget sequence (42_poller.md R90, R93), the translator
(43_translator.md R110), the latches, reset (70_reset_and_hazards.md R170) and the response word (30_encoding.md R56).
The block takes no exception (60_exceptions.md R153), so there is no operation for it.
-/

namespace Sys2Proof.Machine

/-! ## Ports -/

/-- The environment's answer to the next port read: the next one written down, else a free one (20_memory.md R36). -/
def Bus.answer (b : Bus) : Byte :=
  match b.script with
  | v :: _ => v
  | [] => Config.envAnswer b.reads

/-- `IoRead(p)`: the answer, and event `R(p, answer)` (00_scope.md R8). -/
def ioRead (p : Port) (b : Bus) : Byte × Bus :=
  (b.answer, { script := b.script.tail, reads := b.reads + 1, log := .read p b.answer :: b.log })

/-- `IoWrite(p, v)`: event `W(p, v)`; the environment absorbs it (00_scope.md R8, 20_memory.md R36). -/
def ioWrite (p : Port) (v : Byte) (b : Bus) : Bus := { b with log := .write p v :: b.log }

/-- `Stall()`: event `S`, no other effect (00_scope.md R8). -/
def stall (b : Bus) : Bus := { b with log := .stall :: b.log }

/-! ## Micro-operations -/

/-- `ReadStatus()` (40_portio.md R70). -/
def readStatus (b : Bus) : Byte × Bus := ioRead .statusCmd b

/-- `ReadData()` (40_portio.md R71). -/
def readData (b : Bus) : Byte × Bus := ioRead .data b

/-- The register `WriteRegister` writes (30_encoding.md R57). -/
inductive WriteReg where
  | cmd
  | data
  deriving DecidableEq, Repr

/-- The port behind which the register stands for a write (20_memory.md R30). -/
def WriteReg.port : WriteReg → Port
  | .cmd => .statusCmd
  | .data => .data

/-- The loop of `WriteRegister` with `n` passes left; `true` is OK, `false` FAIL (40_portio.md R72). -/
def writeLoop (r : WriteReg) (v : Byte) : Nat → Bus → Bool × Bus
  | 0, b => (false, b)
  | n + 1, b =>
    if (decodeStatus (readStatus b).1).ibf then writeLoop r v n (stall (readStatus b).2)
    else (true, ioWrite r.port v (readStatus b).2)

/-- `WriteRegister(reg, v)` (40_portio.md R72). -/
def writeRegister (r : WriteReg) (v : Byte) (b : Bus) : Bool × Bus := writeLoop r v Config.budget b

/-- `ReadByte()`: `some (b, m)` is OK, `none` FAIL (41_byte_reader.md R80). -/
def readByte (b : Bus) : Option (Byte × Bool) × Bus :=
  if (decodeStatus (readStatus b).1).obf then
    if (decodeStatus (readStatus b).1).perr then (none, (readData (readStatus b).2).2)
    else (some ((readData (readStatus b).2).1, (decodeStatus (readStatus b).1).mouse), (readData (readStatus b).2).2)
  else (none, (readStatus b).2)

/-! ## The poller -/

/-- The unget sequence for byte `v`: four calls of `WriteRegister`, whose results are discarded (42_poller.md R93). -/
def unget (v : Byte) (b : Bus) : Bus :=
  (writeRegister .cmd Command.enKbd.code
    (writeRegister .data v
      (writeRegister .cmd Command.wrOut.code
        (writeRegister .cmd Command.disKbd.code b).2).2).2).2

/-- The loop of `POLL(u)` with `n` passes left (42_poller.md R90). -/
def pollLoop (u : Bool) : Nat → Bus → Response × Bus
  | 0, b => (.timeout, b)
  | n + 1, b =>
    match readByte b with
    | (some (v, m), b') => (.polled v m, if u then unget v b' else b')
    | (none, b') => pollLoop u n (stall b')

/-- `POLL(u)` (42_poller.md R90). -/
def poll (u : Bool) (b : Bus) : Response × Bus := pollLoop u Config.budget b

/-! ## The translator -/

/-- Steps 4 to 7 of `XLATE` on the table entry `c` (43_translator.md R118 to R122; digits before letters, R124). -/
def keyChar (shift : Bool) (c : Byte) : Byte :=
  if shift && isDigit c then digitShift c
  else if shift && isLower c then upper c
  else c

/-- `XLATE(raw)` as a function of the operand, the bound table and the latches (43_translator.md R110). -/
def xlateByte (raw : Byte) (map : Table) (l : Latches) : Byte × Latches :=
  if baseCode raw = 0x1d then (0, { l with leftCtrl := !scRelease raw })
  else if baseCode raw = 0x2a then (0, { l with leftShift := !scRelease raw })
  else if baseCode raw = 0x36 then (0, { l with rightShift := !scRelease raw })
  else if baseCode raw = 0x38 then (0, { l with leftAlt := !scRelease raw })
  else if scRelease raw then (0, l)
  else if controllerBytes.contains (baseCode raw) then (0, l)
  else (keyChar l.shift (map.read (baseCode raw)), l)

/-! ## Operations on the whole state -/

/-- The state with response `r` given to the host. -/
def State.respond (s : State) (r : Response) : State := { s with rsp := some r }

/-- The end of an operation in flight, with its response, if it gives one. -/
def State.finish (s : State) (r : Option Response) : State := { s with inFlight := none, rsp := r }

/-- One `WriteRegister(CMD, code)` whose result is discarded and that gives the host no response (40_portio.md R75;
log 25). -/
def State.sendCommand (s : State) (c : Command) : State :=
  { s with bus := (writeRegister .cmd c.code s.bus).2, rsp := none }

/-- The effect of reset on the block: latches 0, `MAP` bound to the host's table, any operation in flight abandoned
without a response (70_reset_and_hazards.md R170, 10_state.md R24; log 5). -/
def State.applyReset (s : State) : State :=
  { s with latches := Latches.zero, map := s.hostMap, inFlight := none, rsp := none }

/-- The host writes an entry of its own table; the bound table stays (20_memory.md R38). -/
def State.setHostEntry (s : State) (i v : Byte) : State := { s with hostMap := s.hostMap.write i v }

/-- The state once this step's input is taken: it leaves the inbox, and the last step's response is gone
(10_state.md R22; log 12). -/
def State.consume (s : State) : State := { s with inbox := s.inbox.tail, rsp := none }

/-- The state once the row placed in the slot is taken (log 10). -/
def State.takeSlot (s : State) : State := { s with slot := none, rsp := none }

/-! ## The response word -/

/-- Format RSP: `st` bit 9, `m` bit 8, `val` bits 7..0; `free` stands for the bits a timeout leaves unspecified
(30_encoding.md R56). -/
def encodeRsp (free : BitVec 9) : Response → RspWord
  | .polled b m => BitVec.ofNat 10 (m.toNat * 256 + b.toNat)
  | .timeout => BitVec.ofNat 10 (512 + free.toNat)
  | .char c => BitVec.ofNat 10 c.toNat
  | .ok => 0

/-- The response word at the block's output, if a response was given in the last step (log 11). -/
def State.rspWord (s : State) : Option RspWord := s.rsp.map (encodeRsp (Config.timeoutBits s.bus.reads))

end Sys2Proof.Machine
end

