-- ==== Sys2Proof/Machine/Mouse.lean ====
section
/-!
DEFINITION. The families of the mouse toggle and of initialisation: SETMOUSE, its two command rows, and INIT (spec
44_mouse_init.md).
-/

namespace Sys2Proof.Machine

/-- `SETMOUSE e` (44_mouse_init.md R140): success whatever the write did (R141). -/
def execSetmouse (e : Bool) (s : State) : Host.Outcome State Fault Refusal :=
  .next ((s.sendCommand (mouseCommand e)).respond .ok)

/-- `CMD.DISMOUSE`, 0xa7 (44_mouse_init.md R143). -/
def execCmdDismouse (s : State) : Host.Outcome State Fault Refusal := .next (s.sendCommand .disMouse)

/-- `CMD.ENMOUSE`, 0xa8 (44_mouse_init.md R142). -/
def execCmdEnmouse (s : State) : Host.Outcome State Fault Refusal := .next (s.sendCommand .enMouse)

/-- `INIT` (44_mouse_init.md R144): binds `MAP`, clears the latches; no port event (R146). -/
def execInit (s : State) : Host.Outcome State Fault Refusal := .next (s.applyReset.respond .ok)

end Sys2Proof.Machine
end

