-- ==== Sys2Proof/Machine/Poller.lean ====
section
/-!
DEFINITION. The family of the keystroke poller: POLL and the three command rows of its unget sequence (spec 42_poller.md).
-/

namespace Sys2Proof.Machine

/-- `POLL u` (42_poller.md R90): reads and writes no latch (R102). -/
def execPoll (u : Bool) (s : State) : Host.Outcome State Fault Refusal :=
  .next { s with bus := (poll u s.bus).2, rsp := some (poll u s.bus).1 }

/-- `CMD.DISKBD`, 0xad (42_poller.md R98). -/
def execCmdDiskbd (s : State) : Host.Outcome State Fault Refusal := .next (s.sendCommand .disKbd)

/-- `CMD.WROUT`, 0xd2 (42_poller.md R99); its operand is a later write to the data register. -/
def execCmdWrout (s : State) : Host.Outcome State Fault Refusal := .next (s.sendCommand .wrOut)

/-- `CMD.ENKBD`, 0xae (42_poller.md R100). -/
def execCmdEnkbd (s : State) : Host.Outcome State Fault Refusal := .next (s.sendCommand .enKbd)

end Sys2Proof.Machine
end

