-- ==== Sys2Proof/Machine/Translator.lean ====
section
/-!
DEFINITION. The family of the scancode translator: XLATE and the seven class rows it decodes (spec 43_translator.md). No
member has a port event (R110).
-/

namespace Sys2Proof.Machine

/-- `XLATE raw` (43_translator.md R110). -/
def execXlate (raw : Byte) (s : State) : Host.Outcome State Fault Refusal :=
  .next { s with latches := (xlateByte raw s.map s.latches).2, rsp := some (.char (xlateByte raw s.map s.latches).1) }

/-- `SC.LCTRL` (43_translator.md R111). -/
def execScLctrl (r : Bool) (s : State) : Host.Outcome State Fault Refusal :=
  .next ({ s with latches := { s.latches with leftCtrl := !r } }.respond (.char 0))

/-- `SC.LSHIFT` (43_translator.md R112). -/
def execScLshift (r : Bool) (s : State) : Host.Outcome State Fault Refusal :=
  .next ({ s with latches := { s.latches with leftShift := !r } }.respond (.char 0))

/-- `SC.RSHIFT` (43_translator.md R113). -/
def execScRshift (r : Bool) (s : State) : Host.Outcome State Fault Refusal :=
  .next ({ s with latches := { s.latches with rightShift := !r } }.respond (.char 0))

/-- `SC.LALT` (43_translator.md R114). -/
def execScLalt (r : Bool) (s : State) : Host.Outcome State Fault Refusal :=
  .next ({ s with latches := { s.latches with leftAlt := !r } }.respond (.char 0))

/-- `SC.BREAK` (43_translator.md R115): the base code has no effect. -/
def execScBreak (_base : BitVec 7) (s : State) : Host.Outcome State Fault Refusal := .next (s.respond (.char 0))

/-- `SC.CTRLBYTE` (43_translator.md R116). -/
def execScCtrlbyte (s : State) : Host.Outcome State Fault Refusal := .next (s.respond (.char 0))

/-- `SC.KEY` (43_translator.md R117): the table's entry, then the rules of shift. -/
def execScKey (base : BitVec 7) (s : State) : Host.Outcome State Fault Refusal :=
  .next (s.respond (.char (keyChar s.latches.shift (s.map.read (base.setWidth 8)))))

end Sys2Proof.Machine
end

