-- ==== Sys2Proof/Machine/Dispatch.lean ====
section
/-!
DEFINITION. One arm per instruction, in the order of the opcode table.
-/

namespace Sys2Proof.Machine

def exec (i : Instr) (s : State) : Host.Outcome State Fault Refusal :=
  match i with
  | .poll u => Sys2Proof.Machine.execPoll u s
  | .xlate raw => Sys2Proof.Machine.execXlate raw s
  | .setmouse e => Sys2Proof.Machine.execSetmouse e s
  | .init => Sys2Proof.Machine.execInit s
  | .scLctrl r => Sys2Proof.Machine.execScLctrl r s
  | .scLshift r => Sys2Proof.Machine.execScLshift r s
  | .scRshift r => Sys2Proof.Machine.execScRshift r s
  | .scLalt r => Sys2Proof.Machine.execScLalt r s
  | .scBreak base => Sys2Proof.Machine.execScBreak base s
  | .scCtrlbyte => Sys2Proof.Machine.execScCtrlbyte s
  | .scKey base => Sys2Proof.Machine.execScKey base s
  | .cmdDiskbd => Sys2Proof.Machine.execCmdDiskbd s
  | .cmdWrout => Sys2Proof.Machine.execCmdWrout s
  | .cmdEnkbd => Sys2Proof.Machine.execCmdEnkbd s
  | .cmdDismouse => Sys2Proof.Machine.execCmdDismouse s
  | .cmdEnmouse => Sys2Proof.Machine.execCmdEnmouse s

end Sys2Proof.Machine
end

