-- ==== Sys2Proof/Machine/Sequencer.lean ====
section
/-!
DEFINITION. The sequencer: the same operations event by event (spec 10_state.md R14 names both ways; log 1). `start` puts
an operation in flight, `tick` does its next event. What stands here is the pseudocode of 40_portio.md R72, 41_byte_reader.md
R80, 42_poller.md R90 and 44_mouse_init.md R140, cut at its events.
-/

namespace Sys2Proof.Machine

/-- The command that a step of the unget sequence sends; the payload step sends none (42_poller.md R93). -/
def UngetStep.command : UngetStep → Option Command
  | .disable => some .disKbd
  | .writeOut => some .wrOut
  | .payload => none
  | .enable => some .enKbd

/-- The next step of the unget sequence (42_poller.md R93). -/
def UngetStep.next : UngetStep → Option UngetStep
  | .disable => some .writeOut
  | .writeOut => some .payload
  | .payload => some .enable
  | .enable => none

/-- The register and the byte of the `WriteRegister` that a caller has in flight. -/
def Caller.target : Caller → WriteReg × Byte
  | .setmouse e => (.cmd, (mouseCommand e).code)
  | .unget st b _ =>
    match st.command with
    | some c => (.cmd, c.code)
    | none => (.data, b)
  | .command c => (.cmd, c.code)

/-- What follows a `WriteRegister`, whatever its result: the next unget step with a fresh budget, or the end of the
operation with its response (40_portio.md R75, 42_poller.md R94, R95). -/
def afterWrite (k : Caller) (s : State) : State :=
  match k with
  | .setmouse _ => s.finish (some .ok)
  | .unget st b m =>
    match st.next with
    | some st' => { s with inFlight := some (.writeStatus (.unget st' b m) Config.budget) }
    | none => s.finish (some (.polled b m))
  | .command _ => s.finish none

/-- What follows a successful `ReadByte` of POLL: the unget sequence if asked for, else the end (42_poller.md R90). -/
def afterRead (u : Bool) (b : Byte) (m : Bool) (s : State) : State :=
  if u then { s with inFlight := some (.writeStatus (.unget .disable b m) Config.budget) }
  else s.finish (some (.polled b m))

/-- The next event of an operation in flight. The response is given with the last event (60_exceptions.md R153). -/
def tick (p : InFlight) (s : State) : State :=
  match p with
  | .pollStatus u n =>
    { s with
      bus := (readStatus s.bus).2
      inFlight := some (if (decodeStatus (readStatus s.bus).1).obf then .pollData u n (readStatus s.bus).1
        else .pollStall u n) }
  | .pollData u n snap =>
    if (decodeStatus snap).perr then { s with bus := (readData s.bus).2, inFlight := some (.pollStall u n) }
    else afterRead u (readData s.bus).1 (decodeStatus snap).mouse { s with bus := (readData s.bus).2 }
  | .pollStall u n =>
    if n - 1 = 0 then { s with bus := stall s.bus }.finish (some .timeout)
    else { s with bus := stall s.bus, inFlight := some (.pollStatus u (n - 1)) }
  | .writeStatus k n =>
    { s with
      bus := (readStatus s.bus).2
      inFlight := some (if (decodeStatus (readStatus s.bus).1).ibf then .writeStall k n
        else .writeByte k n (readStatus s.bus).1) }
  | .writeByte k _ _ => afterWrite k { s with bus := ioWrite k.target.1.port k.target.2 s.bus }
  | .writeStall k n =>
    if n - 1 = 0 then afterWrite k { s with bus := stall s.bus }
    else { s with bus := stall s.bus, inFlight := some (.writeStatus k (n - 1)) }

/-- What a step without a new operation does: the operation in flight goes on by one event; an idle block waits
(70_reset_and_hazards.md R172). -/
def advance (s : State) : State :=
  match s.inFlight with
  | some p => tick p s
  | none => s

/-- `WriteRegister` put in flight for a caller, with a fresh budget (10_state.md R14). -/
def startWrite (k : Caller) (s : State) : State := { s with inFlight := some (.writeStatus k Config.budget) }

/-- An operation is issued: one with port events is put in flight, one without is done at once. -/
def start (i : Instr) (s : State) : Host.Outcome State Fault Refusal :=
  match i with
  | .poll u => .next { s with inFlight := some (.pollStatus u Config.budget) }
  | .xlate raw => exec (.xlate raw) s
  | .setmouse e => .next (startWrite (.setmouse e) s)
  | .init => exec .init s
  | .scLctrl r => exec (.scLctrl r) s
  | .scLshift r => exec (.scLshift r) s
  | .scRshift r => exec (.scRshift r) s
  | .scLalt r => exec (.scLalt r) s
  | .scBreak base => exec (.scBreak base) s
  | .scCtrlbyte => exec .scCtrlbyte s
  | .scKey base => exec (.scKey base) s
  | .cmdDiskbd => .next (startWrite (.command .disKbd) s)
  | .cmdWrout => .next (startWrite (.command .wrOut) s)
  | .cmdEnkbd => .next (startWrite (.command .enKbd) s)
  | .cmdDismouse => .next (startWrite (.command .disMouse) s)
  | .cmdEnmouse => .next (startWrite (.command .enMouse) s)

/-- A request, or a placed row, arrives: refused while an operation is in flight (60_exceptions.md R162), else decoded and run. -/
def accept (run : Instr → State → Host.Outcome State Fault Refusal) (f : Format) (bytes : List Byte) (s : State) :
    Host.Outcome State Fault Refusal :=
  match s.inFlight with
  | some _ => .refused .overlappingRequest
  | none =>
    match decode f bytes with
    | .ok i => run i s
    | .error e => .refused (.badEncoding e)

/-- One step on an input: the host's requests are of format REQ, and so one of its four operations (00_scope.md R2). -/
def stepInput (s : State) : Host.Outcome State Fault Refusal :=
  match s.inbox with
  | .call bytes :: _ => accept exec .req bytes s.consume
  | .issue bytes :: _ => accept start .req bytes s.consume
  | .reset :: _ => .next s.consume.applyReset
  | .table i v :: _ => .next (s.consume.setHostEntry i v)
  | .idle :: _ => .next (advance s.consume)
  | [] => .next (advance s.consume)

/-- One step on a row placed from outside the machine (log 10). -/
def stepSlot (w : Slot) (s : State) : Host.Outcome State Fault Refusal :=
  accept (if w.events then start else exec) w.format w.bytes s.takeSlot

end Sys2Proof.Machine
end

