-- ==== Sys2Proof/Machine/Step.lean ====
section
/-!
DEFINITION. One step: the block takes the next input of its inbox (log 7), or the row placed before it (log 10).
-/

namespace Sys2Proof.Machine

/-- One step of the machine. -/
def step (s : State) : Host.Outcome State Fault Refusal :=
  match s.slot with
  | some w => stepSlot w s
  | none => stepInput s

/-- The state whose next step fetches and runs the word of the opcode table, with no operation in flight: a request stands
first in the inbox, as the host's; a row of format SC or CMD, which the host cannot issue, in the slot (log 10, log 29). -/
def State.withFetchWord (s : State) (nbits w : Nat) : State :=
  match tableFormat nbits w with
  | .req => { s with inbox := .call (tableBytes nbits w) :: s.inbox, slot := none, inFlight := none }
  | .sc => { s with slot := some ⟨false, .sc, tableBytes nbits w⟩, inFlight := none }
  | .cmd => { s with slot := some ⟨false, .cmd, tableBytes nbits w⟩, inFlight := none }

end Sys2Proof.Machine
end

