-- ==== Sys2Proof/Safety.lean ====
section
/-!
DEFINITION. What statements about the machine speak of: views of the event trace (spec 00_scope.md R9), the discipline
the block keeps toward the controller (20_memory.md R35, 30_encoding.md R54, 10_state.md R19), the invariant of the
state, and the relation between states that differ only where nothing looks (10_state.md R12).
Traces are lists of events, newest first.
-/

namespace Sys2Proof.Machine

/-! ## Views of a trace -/

/-- How many status reads a trace holds. -/
def statusReads (tr : List Event) : Nat := tr.countP fun e => match e with
  | .read .statusCmd _ => true
  | _ => false

/-- How many data reads a trace holds. -/
def dataReads (tr : List Event) : Nat := tr.countP fun e => match e with
  | .read .data _ => true
  | _ => false

/-- How many stalls a trace holds. -/
def stalls (tr : List Event) : Nat := tr.countP fun e => match e with
  | .stall => true
  | _ => false

/-- The writes of a trace, newest first. -/
def writes (tr : List Event) : List (Port × Byte) := tr.filterMap fun e => match e with
  | .write p v => some (p, v)
  | _ => none

/-- The time a trace spends stalling (70_reset_and_hazards.md R183; log 18). -/
def stallTime (tr : List Event) : Nat := stalls tr * Config.stallUnit

/-- The byte of the latest data read of a trace. -/
def lastData : List Event → Option Byte
  | [] => none
  | .read .data v :: _ => some v
  | _ :: tr => lastData tr

/-! ## The environment's answers to come -/

/-- The answer the environment gives to the `k`th port read from here, counted from 0 (20_memory.md R36). -/
def Bus.upcoming (b : Bus) (k : Nat) : Byte :=
  match b.script.drop k with
  | v :: _ => v
  | [] => Config.envAnswer (b.reads + k)

/-- The bus after `k` port reads and the events `evs`, newest first. -/
def Bus.after (b : Bus) (k : Nat) (evs : List Event) : Bus :=
  { script := b.script.drop k, reads := b.reads + k, log := evs ++ b.log }

/-- `k*[R(S) S]`: the first `k` answers read as status, each followed by a stall, newest event first (40_portio.md R73). -/
def busyPasses (b : Bus) : Nat → List Event
  | 0 => []
  | k + 1 => .stall :: .read .statusCmd (b.upcoming k) :: busyPasses b k

/-- The bus after `k` failed passes of POLL, each with its stall (42_poller.md R91). -/
def failedPasses (b : Bus) : Nat → Bus
  | 0 => b
  | k + 1 => stall (readByte (failedPasses b k)).2

/-! ## The handshakes -/

/-- The trace's latest event is a status read whose snapshot had `OBF` = 1. -/
def obfJustSeen : List Event → Bool
  | .read .statusCmd s :: _ => (decodeStatus s).obf
  | _ => false

/-- The trace's latest event is a status read whose snapshot had `IBF` = 0. -/
def ibfClearJustSeen : List Event → Bool
  | .read .statusCmd s :: _ => !(decodeStatus s).ibf
  | _ => false

/-- One event is allowed after the trace `tr`: the data register is read only right after a status read with `OBF` = 1;
a byte is written only right after one with `IBF` = 0 (20_memory.md R35); a command write carries one of the five codes
(30_encoding.md R54); a data write carries the byte of the latest data read (10_state.md R19). -/
def Event.allowed (tr : List Event) : Event → Bool
  | .read .statusCmd _ => true
  | .read .data _ => obfJustSeen tr
  | .write .statusCmd v => ibfClearJustSeen tr && (decodeCommand v).isSome
  | .write .data v => ibfClearJustSeen tr && (lastData tr == some v)
  | .stall => true

/-- Every event of a trace is allowed after those before it. -/
def handshaked : List Event → Bool
  | [] => true
  | e :: tr => e.allowed tr && handshaked tr

/-! ## The invariant -/

/-- A `WriteRegister` in flight writes what the discipline allows: a replay carries the latest byte read. -/
def Caller.consistent (tr : List Event) : Caller → Bool
  | .unget _ b _ => lastData tr == some b
  | _ => true

/-- The budget counter of a pass: 1 to 12000 (10_state.md R14). -/
def budgetOk (n : Nat) : Bool := decide (0 < n) && decide (n ≤ Config.budget)

/-- An operation in flight agrees with the trace so far: its snapshot is the latest event (41_byte_reader.md R84,
40_portio.md R72), its counter is in range. -/
def InFlight.consistent (tr : List Event) : InFlight → Bool
  | .pollStatus _ n => budgetOk n
  | .pollData _ n snap => budgetOk n && (tr.head? == some (.read .statusCmd snap)) && (decodeStatus snap).obf
  | .pollStall _ n => budgetOk n
  | .writeStatus k n => budgetOk n && k.consistent tr
  | .writeByte k n snap =>
    budgetOk n && k.consistent tr && (tr.head? == some (.read .statusCmd snap)) && !(decodeStatus snap).ibf
  | .writeStall k n => budgetOk n && k.consistent tr

/-- The invariant: both tables in canonical form, the trace disciplined, an operation in flight consistent with it. -/
def State.inv (s : State) : Bool :=
  s.map.wf && s.hostMap.wf && handshaked s.bus.log &&
    match s.inFlight with
    | some p => p.consistent s.bus.log
    | none => true

/-! ## What the next step takes up -/

/-- The instruction that some bytes are, if they are one. -/
def decoded (f : Format) (bytes : List Byte) : Option Instr :=
  match decode f bytes with
  | .ok i => some i
  | .error _ => none

/-- The instruction that the next step takes up, if it takes up one: a placed row's (log 10), else a request's. -/
def State.nextInstr (s : State) : Option Instr :=
  match s.slot with
  | some w => decoded w.format w.bytes
  | none =>
    match s.inbox with
    | .call bytes :: _ => decoded .req bytes
    | .issue bytes :: _ => decoded .req bytes
    | _ => none

/-- The state once what the next step takes up is taken. -/
def State.taken (s : State) : State :=
  match s.slot with
  | some _ => s.takeSlot
  | none => s.consume

/-- The next step takes the reset input. -/
def State.nextIsReset (s : State) : Prop := s.slot = none ∧ ∃ rest, s.inbox = .reset :: rest

/-- One of the host's four operations (00_scope.md R2 (a)). -/
def hostOperation (i : Instr) : Prop :=
  (∃ u, i = .poll u) ∨ (∃ raw, i = .xlate raw) ∨ (∃ e, i = .setmouse e) ∨ i = .init

/-! ## What the host can reach -/

/-- A `WriteRegister` in flight that one of the host's operations called. -/
def Caller.ofHost : Caller → Bool
  | .setmouse _ => true
  | .unget _ _ _ => true
  | .command _ => false

/-- An operation in flight that is one of the host's. -/
def InFlight.ofHost : InFlight → Bool
  | .pollStatus _ _ => true
  | .pollData _ _ _ => true
  | .pollStall _ _ => true
  | .writeStatus k _ => k.ofHost
  | .writeByte k _ _ => k.ofHost
  | .writeStall k _ => k.ofHost

/-- Nothing runs, or is placed to run, but the host's four operations (00_scope.md R2). -/
def State.hostOnly (s : State) : Bool :=
  s.slot.isNone && match s.inFlight with
    | some p => p.ofHost
    | none => true

/-! ## States that differ only in ctrl and alt -/

/-- The state with the two latches that nothing reads at other values (10_state.md R12). -/
def State.withCtrlAlt (s : State) (ctrl alt : Bool) : State :=
  { s with latches := { s.latches with leftCtrl := ctrl, leftAlt := alt } }

/-- Two states agree on everything but `L.leftCtrl` and `L.leftAlt`. -/
def State.sameButCtrlAlt (s t : State) : Prop := t = s.withCtrlAlt t.latches.leftCtrl t.latches.leftAlt

/-- Two outcomes of a step are of the same kind and, if next states, agree but for `L.leftCtrl` and `L.leftAlt`. -/
def sameOutcome : Host.Outcome State Fault Refusal → Host.Outcome State Fault Refusal → Prop
  | .next s, .next t => s.sameButCtrlAlt t
  | .refused a, .refused b => a = b
  | _, _ => False

end Sys2Proof.Machine
end

