-- ==== Sys2Proof/Certificates/Slice0/Obligations.lean ====
section
/-!
DEFINITION. The statements for the provers. Each docstring names the rules of spec/ that the statement formalises; where a
statement rests on a choice of the model it says so and names the log entry. Event lists are newest first.
-/

open Sys2Proof Sys2Proof.Machine

/-! ## Encoding -/

/-- 30_encoding.md R51, R52, R54, R55: decoding an encoded well-formed instruction gives it back. The two-byte layout of a
request word is the model's (log 9). -/
def Obligations.DecodeEncodeRoundTrip : Prop := ∀ i : Instr, i.wf = true → decode i.format (encode i) = .ok i

/-- 30_encoding.md R52, R54, R55: whatever bytes decode in a format decode to a well-formed instruction of that format. -/
def Obligations.DecodedInstructionsAreWellFormed : Prop :=
  ∀ f bs i, decode f bs = .ok i → i.wf = true ∧ i.format = f

/-- 30_encoding.md R55: every request word selects an operation by bits 10..9; bit 8 is the operand of POLL and SETMOUSE,
bits 7..0 that of XLATE; no other bit matters (the spec's decision D4). The word's upper byte is stored second, and its bits
7..3 are 0 (the model's choice, log 9). -/
def Obligations.RequestWordsSelectOperations : Prop :=
  ∀ arg hi : Byte,
    (hi = 0 → decode .req [arg, hi] = .ok (.poll false)) ∧
    (hi = 1 → decode .req [arg, hi] = .ok (.poll true)) ∧
    (hi = 2 ∨ hi = 3 → decode .req [arg, hi] = .ok (.xlate arg)) ∧
    (hi = 4 → decode .req [arg, hi] = .ok (.setmouse false)) ∧
    (hi = 5 → decode .req [arg, hi] = .ok (.setmouse true)) ∧
    (hi = 6 ∨ hi = 7 → decode .req [arg, hi] = .ok .init) ∧
    (8 ≤ hi.toNat → decode .req [arg, hi] = .error .requestTooWide)

/-- 30_encoding.md R52: the class of every scancode byte, by the table's column of byte values. -/
def Obligations.ScancodeClassesByValue : Prop :=
  ∀ raw : Byte,
    (raw ∈ [0x1d, 0x9d] → decode .sc [raw] = .ok (.scLctrl raw[7])) ∧
    (raw ∈ [0x2a, 0xaa] → decode .sc [raw] = .ok (.scLshift raw[7])) ∧
    (raw ∈ [0x36, 0xb6] → decode .sc [raw] = .ok (.scRshift raw[7])) ∧
    (raw ∈ [0x38, 0xb8] → decode .sc [raw] = .ok (.scLalt raw[7])) ∧
    (0x80 ≤ raw.toNat → raw ∉ [0x9d, 0xaa, 0xb6, 0xb8] → decode .sc [raw] = .ok (.scBreak (raw.setWidth 7))) ∧
    (raw = 0x00 → decode .sc [raw] = .ok .scCtrlbyte) ∧
    (0x01 ≤ raw.toNat → raw.toNat ≤ 0x7f → raw ∉ [0x1d, 0x2a, 0x36, 0x38] →
      decode .sc [raw] = .ok (.scKey (raw.setWidth 7)))

/-- 30_encoding.md R54, R59 (f): the five command codes, and no other byte is a command. -/
def Obligations.CommandBytesDecode : Prop :=
  ∀ code : Byte,
    (code = 0xad → decode .cmd [code] = .ok .cmdDiskbd) ∧
    (code = 0xd2 → decode .cmd [code] = .ok .cmdWrout) ∧
    (code = 0xae → decode .cmd [code] = .ok .cmdEnkbd) ∧
    (code = 0xa7 → decode .cmd [code] = .ok .cmdDismouse) ∧
    (code = 0xa8 → decode .cmd [code] = .ok .cmdEnmouse) ∧
    (code ∉ [0xad, 0xd2, 0xae, 0xa7, 0xa8] → decode .cmd [code] = .error .unknownCommand)

/-- Words written out from 30_encoding.md R52, R54, R55 and R61: one of each row decodes to its instruction. That a request
word is two bytes, the low one first, is the model's choice (log 9); the rules give the word's bits only. -/
def Obligations.SpecWordsDecode : Prop :=
  decode .req [0xa5, 0x01] = .ok (.poll true) ∧ decode .req [0x36, 0x03] = .ok (.xlate 0x36) ∧
  decode .req [0xff, 0x04] = .ok (.setmouse false) ∧ decode .req [0x00, 0x06] = .ok .init ∧
  decode .sc [0x9d] = .ok (.scLctrl true) ∧ decode .sc [0x2a] = .ok (.scLshift false) ∧
  decode .sc [0xb6] = .ok (.scRshift true) ∧ decode .sc [0x38] = .ok (.scLalt false) ∧
  decode .sc [0x9e] = .ok (.scBreak 0x1e) ∧ decode .sc [0x00] = .ok .scCtrlbyte ∧
  decode .sc [0x6e] = .ok (.scKey 0x6e) ∧ decode .cmd [0xad] = .ok .cmdDiskbd ∧ decode .cmd [0xd2] = .ok .cmdWrout ∧
  decode .cmd [0xae] = .ok .cmdEnkbd ∧ decode .cmd [0xa7] = .ok .cmdDismouse ∧ decode .cmd [0xa8] = .ok .cmdEnmouse

/-- 30_encoding.md R53, 10_state.md R17: the four decoded status bits, whatever the other four hold. -/
def Obligations.StatusByteDecode : Prop :=
  ∀ s : Byte, decodeStatus s = ⟨s[0], s[1], s[5], s[7]⟩ ∧
    ∀ s' : Byte, s &&& 0xa3 = s' &&& 0xa3 → decodeStatus s' = decodeStatus s

/-- 30_encoding.md R56: the response word: `st` in bit 9, `m` in bit 8, `val` in bits 7..0. On a timeout only `st` is fixed,
whatever the free bits are (log 11). -/
def Obligations.ResponseWordFields : Prop :=
  (∀ free b m, (encodeRsp free (.polled b m)).toNat = m.toNat * 256 + b.toNat) ∧
  (∀ free, (encodeRsp free .timeout)[9] = true) ∧
  (∀ free c, (encodeRsp free (.char c)).toNat = c.toNat) ∧
  (∀ free, (encodeRsp free .ok).toNat = 0) ∧
  (∀ s : State, s.rspWord = s.rsp.map (encodeRsp (Config.timeoutBits s.bus.reads)))

/-- 20_memory.md R39: the two ports are different, whatever their addresses are (log 17). -/
def Obligations.PortsAreDifferent : Prop := Port.statusCmd.address ≠ Port.data.address

/-! ## Micro-operations -/

/-- 40_portio.md R70, R71: each is one port read, and its result the environment's answer. -/
def Obligations.ReadStatusAndReadDataReadOnce : Prop :=
  ∀ b : Bus, readStatus b = (b.upcoming 0, b.after 1 [.read .statusCmd (b.upcoming 0)]) ∧
    readData b = (b.upcoming 0, b.after 1 [.read .data (b.upcoming 0)])

/-- 41_byte_reader.md R80 to R84: one status read; a data read exactly when OBF is set; the byte is dropped if PERR is set;
the verdict and the mouse flag are those of that one snapshot. That the byte is read before the parity test is the spec's
decision D8 (log 14). -/
def Obligations.ReadByteVerdict : Prop :=
  ∀ b : Bus,
    ((b.upcoming 0)[0] = false → readByte b = (none, b.after 1 [.read .statusCmd (b.upcoming 0)])) ∧
    ((b.upcoming 0)[0] = true → (b.upcoming 0)[7] = true →
      readByte b = (none, b.after 2 [.read .data (b.upcoming 1), .read .statusCmd (b.upcoming 0)])) ∧
    ((b.upcoming 0)[0] = true → (b.upcoming 0)[7] = false →
      readByte b = (some (b.upcoming 1, (b.upcoming 0)[5]),
        b.after 2 [.read .data (b.upcoming 1), .read .statusCmd (b.upcoming 0)]))

/-- 40_portio.md R72, R73: the exact events of `WriteRegister`: it writes after `k` busy snapshots, for any `k` below 12000,
or gives up after 12000 without a write. The order at the ends of the loop is the spec's decision D7 (log 13). -/
def Obligations.WriteRegisterExactCounts : Prop :=
  ∀ (r : WriteReg) (v : Byte) (b : Bus),
    (∀ k < 12000, (∀ j < k, (b.upcoming j)[1] = true) → (b.upcoming k)[1] = false →
      writeRegister r v b = (true, b.after (k + 1)
        (.write (if r = .cmd then .statusCmd else .data) v :: .read .statusCmd (b.upcoming k) :: busyPasses b k))) ∧
    ((∀ j < 12000, (b.upcoming j)[1] = true) → writeRegister r v b = (false, b.after 12000 (busyPasses b 12000)))

/-! ## The poller -/

/-- 42_poller.md R90, R91, R95, R101: POLL succeeds on the first pass that does, if it is among the first 12000, whatever the
replay (R93) does; nothing but the ports and the response changes (R102). That a mouse byte is replayed too is the spec's
decision D11 (log 22), the order of a pass its decisions D8 and D9 (log 14). -/
def Obligations.PollSucceedsOnFirstGoodPass : Prop :=
  ∀ (u : Bool) (s : State) (k : Nat) (v : Byte) (m : Bool) (b : Bus), k < 12000 →
    (∀ j < k, (readByte (failedPasses s.bus j)).1 = none) →
    readByte (failedPasses s.bus k) = (some (v, m), b) →
    exec (.poll u) s = .next { s with bus := if u then unget v b else b, rsp := some (.polled v m) }

/-- 42_poller.md R92: after 12000 failed passes POLL times out, with or without unget; each pass is followed by a stall, and
nothing is written. -/
def Obligations.PollTimesOutWithoutWrites : Prop :=
  ∀ (u : Bool) (s : State), (∀ j < 12000, (readByte (failedPasses s.bus j)).1 = none) →
    exec (.poll u) s = .next { s with bus := failedPasses s.bus 12000, rsp := some .timeout } ∧
    ∃ n evs, failedPasses s.bus 12000 = s.bus.after n evs ∧ writes evs = [] ∧ stalls evs = 12000 ∧
      statusReads evs = 12000

/-- 60_exceptions.md R150: the timeout is POLL's alone, and it is exactly the answer to 12000 failed passes; it is reported as
`st` = 1, and but for the port events it leaves the block as it was. -/
def Obligations.OnlyPollTimesOut : Prop :=
  (∀ i s t, exec i s = .next t →
    (t.rsp = some .timeout ↔ ∃ u, i = .poll u ∧ ∀ j < 12000, (readByte (failedPasses s.bus j)).1 = none) ∧
    (t.rsp = some .timeout → t = { s with bus := t.bus, rsp := some .timeout })) ∧
  ∀ free, (encodeRsp free .timeout)[9] = true

/-- 42_poller.md R93: with unget, and IBF clear in the four snapshots after the read, the four writes 0xad, 0xd2, the byte,
0xae go out in this order, each right after its snapshot. That no stall stands between is the spec's decision D7 (log 13). -/
def Obligations.UngetReplaysInOrder : Prop :=
  ∀ (s : State) (v : Byte) (m : Bool) (b : Bus), readByte s.bus = (some (v, m), b) →
    (∀ j < 4, (b.upcoming j)[1] = false) →
    exec (.poll true) s = .next { s with
      rsp := some (.polled v m)
      bus := b.after 4 [.write .statusCmd 0xae, .read .statusCmd (b.upcoming 3),
        .write .data v, .read .statusCmd (b.upcoming 2),
        .write .statusCmd 0xd2, .read .statusCmd (b.upcoming 1),
        .write .statusCmd 0xad, .read .statusCmd (b.upcoming 0)] }

/-- 42_poller.md R94: the writes of an unget sequence are some of the four, in order; and each of the 16 subsets is the set of
writes of some sequence. -/
def Obligations.UngetWritesAreAnySubset : Prop :=
  (∀ (v : Byte) (b : Bus), ∃ n evs, unget v b = b.after n evs ∧
    List.Sublist (writes evs).reverse [(.statusCmd, 0xad), (.statusCmd, 0xd2), (.data, v), (.statusCmd, 0xae)]) ∧
  (∀ (v : Byte) (ws : List (Port × Byte)),
    List.Sublist ws [(.statusCmd, 0xad), (.statusCmd, 0xd2), (.data, v), (.statusCmd, 0xae)] →
    ∃ b n evs, unget v b = b.after n evs ∧ (writes evs).reverse = ws)

/-- 42_poller.md R95: POLL's response is the same with unget and without. -/
def Obligations.ReplayLeavesTheResponse : Prop :=
  ∀ s t t', exec (.poll true) s = .next t → exec (.poll false) s = .next t' → t.rsp = t'.rsp

/-- 42_poller.md R101, 70_reset_and_hazards.md R183: POLL's events are bounded, and so is the time it stalls. The
counts rest on the spec's decisions D7 and D9 (log 13). -/
def Obligations.PollEventsAreBounded : Prop :=
  ∀ u s t, exec (.poll u) s = .next t → ∃ n evs, t.bus = s.bus.after n evs ∧
    statusReads evs ≤ (if u then 60000 else 12000) ∧ dataReads evs ≤ 12000 ∧
    stalls evs ≤ (if u then 59999 else 12000) ∧ stallTime evs ≤ (if u then 59999 else 12000) * Config.stallUnit ∧
    (writes evs).length ≤ (if u then 4 else 0)

/-! ## SETMOUSE and the command rows -/

/-- 44_mouse_init.md R140, R141, 40_portio.md R72, R73: one command write after `k` busy snapshots, none after 12000; success
in both cases. The order at the ends of the loop, and so the count of events, is the spec's decision D7 (log 13). -/
def Obligations.SetMouseAlwaysReportsSuccess : Prop :=
  ∀ (e : Bool) (s : State),
    (∀ k < 12000, (∀ j < k, (s.bus.upcoming j)[1] = true) → (s.bus.upcoming k)[1] = false →
      exec (.setmouse e) s = .next { s with
        rsp := some .ok
        bus := s.bus.after (k + 1) (.write .statusCmd (if e then 0xa8 else 0xa7) ::
          .read .statusCmd (s.bus.upcoming k) :: busyPasses s.bus k) }) ∧
    ((∀ j < 12000, (s.bus.upcoming j)[1] = true) →
      exec (.setmouse e) s = .next { s with rsp := some .ok, bus := s.bus.after 12000 (busyPasses s.bus 12000) })

/-- 42_poller.md R98 to R100, 44_mouse_init.md R142, R143, by 40_portio.md R73: each command row writes its own code to the
command register, or nothing after 12000 busy snapshots. That such a row runs by itself and gives no response is the
model's choice (log 10, log 25); the count of events is the spec's decision D7 (log 13). -/
def Obligations.CommandRowsWriteTheirCode : Prop :=
  ∀ (i : Instr) (code : Byte) (s : State),
    (i, code) ∈ [(Instr.cmdDiskbd, (0xad : Byte)), (.cmdWrout, 0xd2), (.cmdEnkbd, 0xae), (.cmdDismouse, 0xa7),
      (.cmdEnmouse, 0xa8)] →
    (∀ k < 12000, (∀ j < k, (s.bus.upcoming j)[1] = true) → (s.bus.upcoming k)[1] = false →
      exec i s = .next { s with
        rsp := none
        bus := s.bus.after (k + 1) (.write .statusCmd code ::
          .read .statusCmd (s.bus.upcoming k) :: busyPasses s.bus k) }) ∧
    ((∀ j < 12000, (s.bus.upcoming j)[1] = true) →
      exec i s = .next { s with rsp := none, bus := s.bus.after 12000 (busyPasses s.bus 12000) })

/-! ## INIT and reset -/

/-- 44_mouse_init.md R144: INIT binds the host's table, clears the four latches and reports success. That it always succeeds and
touches no port (R146) are the spec's decisions D15 and D28 (log 20). -/
def Obligations.InitBindsTableAndClearsLatches : Prop :=
  ∀ s : State, exec .init s = .next { s with
    latches := ⟨false, false, false, false⟩
    map := s.hostMap
    inFlight := none
    rsp := some .ok }

/-- 44_mouse_init.md R145: two INITs in a row leave the same state as one. -/
def Obligations.InitIsIdempotent : Prop := ∀ s t, exec .init s = .next t → exec .init t = .next t

/-- 70_reset_and_hazards.md R170: the reset input clears the latches, binds the table, abandons the operation in flight
without a response, and touches no port. That there is a reset input, and what it does, is the spec's decision D16 (log 5). -/
def Obligations.ResetInputClearsTheBlock : Prop :=
  ∀ (s : State) (rest : List Input), s.slot = none → s.inbox = .reset :: rest →
    step s = .next { s with
      latches := ⟨false, false, false, false⟩
      map := s.hostMap
      inFlight := none
      inbox := rest
      rsp := none }

/-- 10_state.md R24, 70_reset_and_hazards.md R170: the latches are 0, nothing is in flight and MAP is bound to the host's
table. That the host's table at reset is the parameter MAP, whatever it is, is the model's choice (log 3). -/
def Obligations.ResetStateValues : Prop :=
  State.reset.latches = ⟨false, false, false, false⟩ ∧ State.reset.inFlight = none ∧
    ∀ i, State.reset.map.read i = Config.scancodeMap i ∧ State.reset.hostMap.read i = Config.scancodeMap i

/-- 70_reset_and_hazards.md R171, vector I8 of 95_test_vectors.md: whatever the latches held, once both shift codes have been
translated the shift latches are determined. -/
def Obligations.ShiftLatchesAreDeterminedByWrites : Prop :=
  ∀ s t t', exec (.xlate 0x2a) s = .next t → exec (.xlate 0xb6) t = .next t' →
    t'.latches = ⟨s.latches.leftCtrl, true, false, s.latches.leftAlt⟩

/-! ## The translator -/

/-- 43_translator.md R111 to R114: the eight modifier bytes, by XLATE and by the row of their class: one latch written with
the complement of the release bit, result 0, nothing else changed. That a class row runs by itself and answers the host is
the model's choice (log 10). -/
def Obligations.ModifierBytesWriteOneLatch : Prop :=
  ∀ (s : State) (r : Bool),
    (∀ i, i = .xlate (if r then 0x9d else 0x1d) ∨ i = .scLctrl r →
      exec i s = .next { s with latches := { s.latches with leftCtrl := !r }, rsp := some (.char 0) }) ∧
    (∀ i, i = .xlate (if r then 0xaa else 0x2a) ∨ i = .scLshift r →
      exec i s = .next { s with latches := { s.latches with leftShift := !r }, rsp := some (.char 0) }) ∧
    (∀ i, i = .xlate (if r then 0xb6 else 0x36) ∨ i = .scRshift r →
      exec i s = .next { s with latches := { s.latches with rightShift := !r }, rsp := some (.char 0) }) ∧
    (∀ i, i = .xlate (if r then 0xb8 else 0x38) ∨ i = .scLalt r →
      exec i s = .next { s with latches := { s.latches with leftAlt := !r }, rsp := some (.char 0) })

/-- 43_translator.md R115, R116: any other release, and the byte 0x00, by XLATE and by the row of their class: result 0,
nothing else changed. That a class row runs by itself is the model's choice (log 10); where R116's set is tested is the spec's
decision D23 (log 21). -/
def Obligations.ReleasesAndControlByteGiveZero : Prop :=
  ∀ (raw : Byte) (s : State) (i : Instr),
    (0x80 ≤ raw.toNat ∧ raw ∉ [0x9d, 0xaa, 0xb6, 0xb8] ∧ (i = .xlate raw ∨ i = .scBreak (raw.setWidth 7))) ∨
      (raw = 0x00 ∧ (i = .xlate raw ∨ i = .scCtrlbyte)) →
    exec i s = .next { s with rsp := some (.char 0) }

/-- `DIGIT_SHIFT` (10_state.md R21): a digit's character and its shifted symbol's. -/
def Sys2Proof.Machine.shiftedDigits : List (Byte × Byte) :=
  [(0x30, 0x29), (0x31, 0x21), (0x32, 0x40), (0x33, 0x23), (0x34, 0x24), (0x35, 0x25), (0x36, 0x5e), (0x37, 0x26),
    (0x38, 0x2a), (0x39, 0x28)]

/-- 43_translator.md R117 to R119, R121 to R123: an ordinary key, by XLATE and by its row: its table entry; with a shift latch
set a digit becomes its symbol and a lowercase letter its capital; nothing else changed. A capital's value (R123) is the spec's
decision D12 (log 15), the symbols' values its decision D13 (log 16). That SC.KEY runs by itself is the model's choice (log 10). -/
def Obligations.KeysGiveTheirCharacter : Prop :=
  ∀ (raw : Byte) (s : State) (i : Instr) (c : Byte),
    0x01 ≤ raw.toNat → raw.toNat ≤ 0x7f → raw ∉ [0x1d, 0x2a, 0x36, 0x38] →
    (i = .xlate raw ∨ i = .scKey (raw.setWidth 7)) → s.map.read raw = c →
    (s.latches.leftShift = false ∧ s.latches.rightShift = false →
      exec i s = .next { s with rsp := some (.char c) }) ∧
    (s.latches.leftShift = true ∨ s.latches.rightShift = true →
      (∀ sym, (c, sym) ∈ shiftedDigits → exec i s = .next { s with rsp := some (.char sym) }) ∧
      (0x60 < c.toNat → c.toNat < 0x7b → exec i s = .next { s with rsp := some (.char (c - 0x20)) }) ∧
      (c.toNat ≤ 0x2f ∨ 0x3a ≤ c.toNat → c.toNat ≤ 0x60 ∨ 0x7b ≤ c.toNat →
        exec i s = .next { s with rsp := some (.char c) }))

/-- 43_translator.md R127: the eight modifier bytes each write exactly one latch, and no other byte writes any; a release
outside the eight gives 0. -/
def Obligations.OtherBytesKeepAllLatches : Prop :=
  ∀ (raw : Byte) (s : State), ∃ t, exec (.xlate raw) s = .next t ∧
    (raw ∉ [0x1d, 0x9d, 0x2a, 0xaa, 0x36, 0xb6, 0x38, 0xb8] → t.latches = s.latches) ∧
    (raw ∉ [0x1d, 0x9d, 0x2a, 0xaa, 0x36, 0xb6, 0x38, 0xb8] → 0x80 ≤ raw.toNat → t.rsp = some (.char 0)) ∧
    (raw = 0x1d → t.latches = { s.latches with leftCtrl := true }) ∧
    (raw = 0x9d → t.latches = { s.latches with leftCtrl := false }) ∧
    (raw = 0x2a → t.latches = { s.latches with leftShift := true }) ∧
    (raw = 0xaa → t.latches = { s.latches with leftShift := false }) ∧
    (raw = 0x36 → t.latches = { s.latches with rightShift := true }) ∧
    (raw = 0xb6 → t.latches = { s.latches with rightShift := false }) ∧
    (raw = 0x38 → t.latches = { s.latches with leftAlt := true }) ∧
    (raw = 0xb8 → t.latches = { s.latches with leftAlt := false })

/-- 43_translator.md R116, R128: the eight listed controller bytes translate to 0 in every state; 0xaa alone writes a latch,
and clears leftShift. The spec derives this from R110 and R112. -/
def Obligations.ControllerBytesGiveZero : Prop :=
  ∀ (raw : Byte) (s : State), raw ∈ [0x00, 0xaa, 0xee, 0xfa, 0xfc, 0xfd, 0xfe, 0xff] →
    exec (.xlate raw) s = .next { s with
      rsp := some (.char 0)
      latches := if raw = 0xaa then { s.latches with leftShift := false } else s.latches }

/-- 43_translator.md R110 by 30_encoding.md R52: XLATE of a byte is the row of the byte's class. That a class row runs by itself
is the model's choice (log 10). -/
def Obligations.XlateIsTheRowOfItsClass : Prop :=
  ∀ raw s i, decode .sc [raw] = .ok i → exec (.xlate raw) s = exec i s

/-- 43_translator.md R120: only the 123 entries of ordinary keys matter; two tables that agree on them translate alike. -/
def Obligations.XlateReadsOnlyKeyEntries : Prop :=
  ∀ (raw : Byte) (s t : State) (m : Table),
    (∀ a : Byte, 0x01 ≤ a.toNat → a.toNat ≤ 0x7f → a ∉ [0x1d, 0x2a, 0x36, 0x38] → m.read a = s.map.read a) →
    exec (.xlate raw) s = .next t → exec (.xlate raw) { s with map := m } = .next { t with map := m }

/-- 43_translator.md R126: every one of the 16 latch states is reached from 0000 by translating bytes. -/
def Obligations.AllLatchStatesAreReachable : Prop :=
  ∀ l : Latches, ∃ raws : List Byte, ∀ s : State, s.slot = none → s.inFlight = none →
    s.latches = ⟨false, false, false, false⟩ → s.inbox = raws.map (fun raw => Input.call (encode (.xlate raw))) →
    ∃ t, Host.Core.run core raws.length s = .next t ∧ t.latches = l

/-! ## The table -/

/-- The table's own laws, on which 20_memory.md R33 (reads of MAP are pure) rests: a write changes its entry alone and keeps the
canonical form. The form is the model's (log 4). -/
def Obligations.TableReadAfterWrite : Prop :=
  ∀ (t : Table) (i v : Byte), t.wf = true →
    (t.write i v).wf = true ∧ ∀ j : Byte, (t.write i v).read j = if i = j then v else t.read j

/-- 20_memory.md R38: the host writes its own table in a step of its own; XLATE's table changes only at INIT or reset, and then
to the host's. -/
def Obligations.TableIsBoundByInitOrResetOnly : Prop :=
  (∀ s t, step s = .next t → t.map = s.map ∨
    (t.map = s.hostMap ∧ (s.nextIsReset ∨ s.nextInstr = some .init))) ∧
  (∀ (s : State) (i v : Byte) (rest : List Input), s.slot = none → s.inbox = .table i v :: rest →
    step s = .next { s with inbox := rest, rsp := none, hostMap := s.hostMap.write i v })

/-! ## The whole machine -/

/-- 60_exceptions.md R153, 30_encoding.md R59: every instruction completes in every state; none traps. That the class rows and
the command rows are instructions that run by themselves is the model's choice (log 10). -/
def Obligations.EveryInstructionCompletes : Prop := ∀ i s, ∃ t, exec i s = .next t

/-- What no instruction changes: the inputs to come, the slot and the host's table; but for INIT, the bound table and the operation in
flight; but for the operations with port events, the bus (20_memory.md R42); and those write no latch (10_state.md R11). The class rows and the
command rows are among the instructions by the model's choice (log 10). -/
def Obligations.InstructionFrame : Prop :=
  ∀ i s t, exec i s = .next t →
    t.inbox = s.inbox ∧ t.slot = s.slot ∧ t.hostMap = s.hostMap ∧ (i ≠ .init → t.map = s.map ∧ t.inFlight = s.inFlight) ∧
    ((∀ u, i ≠ .poll u) → (∀ e, i ≠ .setmouse e) → i.format ≠ .cmd → t.bus = s.bus) ∧
    (i.format = .cmd ∨ (∃ u, i = .poll u) ∨ (∃ e, i = .setmouse e) → t.latches = s.latches)

/-- 20_memory.md R34, R36: no step drops or reorders an event; each port read takes exactly one answer of the environment. -/
def Obligations.StepExtendsTheTrace : Prop :=
  ∀ s t, step s = .next t → ∃ evs, t.bus = s.bus.after (statusReads evs + dataReads evs) evs

/-- Every step runs the instruction that the bytes of a request decode to, or those of a placed row, once these are taken and
the last response is gone (the model's interface, log 7, log 10, log 12); in particular after `withFetchWord` (log 29). -/
def Obligations.StepRunsTheDecodedInstruction : Prop :=
  (∀ (s : State) (bytes : List Byte) (rest : List Input) (i : Instr), s.slot = none → s.inFlight = none →
    s.inbox = .call bytes :: rest → decode .req bytes = .ok i → step s = exec i { s with inbox := rest, rsp := none }) ∧
  (∀ (s : State) (f : Format) (bytes : List Byte) (i : Instr), s.slot = some ⟨false, f, bytes⟩ → s.inFlight = none →
    decode f bytes = .ok i → step s = exec i { s with slot := none, rsp := none }) ∧
  (∀ (s : State) (nbits w : Nat) (i : Instr), decodeTableWord nbits w = some i →
    step (s.withFetchWord nbits w) = exec i { s with slot := none, inFlight := none, rsp := none })

/-- 00_scope.md R2: the host has exactly the four operations: what a request makes the next step take up is one of them, and a
call of each runs it. -/
def Obligations.HostIssuesExactlyTheFourOperations : Prop :=
  (∀ (s : State) (i : Instr), s.slot = none → s.nextInstr = some i → hostOperation i) ∧
  (∀ i : Instr, hostOperation i → ∃ bytes, ∀ (s : State) (rest : List Input), s.slot = none → s.inFlight = none →
    s.inbox = .call bytes :: rest → step s = exec i { s with inbox := rest, rsp := none })

/-- 00_scope.md R2: from a state in which no row is placed and no command row is in flight, every step leads to such a state:
whatever the host does, no micro-operation, class row or command row runs by itself. -/
def Obligations.EveryStepKeepsToTheHostsOperations : Prop :=
  ∀ s t, s.hostOnly = true → step s = .next t → t.hostOnly = true

/-- In the reset state no row is placed and no command row is in flight (70_reset_and_hazards.md R172; that the slot is empty
is the model's choice, log 27). -/
def Obligations.ResetStateHasTheHostsOperationsOnly : Prop := State.reset.hostOnly = true

/-- 60_exceptions.md R162: a request that arrives while an operation is in flight is refused, however it is issued (the
spec's decision D17, log 8), and so is a placed row (log 10). -/
def Obligations.OverlappingRequestIsRefused : Prop :=
  ∀ (s : State) (p : InFlight), s.inFlight = some p →
    (∃ w, s.slot = some w) ∨
      (s.slot = none ∧ ∃ bytes rest, s.inbox = .call bytes :: rest ∨ s.inbox = .issue bytes :: rest) →
    step s = .refused .overlappingRequest

/-- Bytes that are no encoding of their format are refused (the model's interface, log 9). -/
def Obligations.UndecodableBytesAreRefused : Prop :=
  ∀ (s : State) (f : Format) (bytes : List Byte) (e : DecodeError), s.inFlight = none →
    (∃ events, s.slot = some ⟨events, f, bytes⟩) ∨
      (s.slot = none ∧ f = .req ∧ ∃ rest, s.inbox = .call bytes :: rest ∨ s.inbox = .issue bytes :: rest) →
    decode f bytes = .error e → step s = .refused (.badEncoding e)

/-- 70_reset_and_hazards.md R172: an idle block without a request waits; nothing runs by itself. The spec derives this
from 10_state.md R14. -/
def Obligations.IdleBlockWaits : Prop :=
  ∀ s : State, s.slot = none → s.inFlight = none → s.inbox = [] ∨ (∃ rest, s.inbox = .idle :: rest) →
    step s = .next { s with inbox := s.inbox.tail, rsp := none }

/-- 10_state.md R11: nothing but a translated modifier byte (by XLATE or by the row of its class), INIT and reset writes a
latch. -/
def Obligations.LatchesHaveNoOtherWriter : Prop :=
  ∀ s t, step s = .next t → t.latches ≠ s.latches →
    s.nextIsReset ∨ ∃ i, s.nextInstr = some i ∧
      (i = .init ∨ (∃ r, i = .scLctrl r ∨ i = .scLshift r ∨ i = .scRshift r ∨ i = .scLalt r) ∨
        ∃ raw, i = .xlate raw ∧ raw ∈ [0x1d, 0x9d, 0x2a, 0xaa, 0x36, 0xb6, 0x38, 0xb8])

/-- 20_memory.md R35, 30_encoding.md R54, 10_state.md R14, R19: the invariant of `State.inv` (both handshakes, the five command
codes, the replayed byte, the budget's range, the tables' form) is kept by every step from every state that has it. -/
def Obligations.EveryStepKeepsTheHandshakes : Prop :=
  ∀ s t, s.inv = true → step s = .next t → t.inv = true

/-- The state after reset has the invariant of `State.inv`, whatever the host's table is (log 3). Its trace is empty by the
model's choice (log 27). -/
def Obligations.ResetStateHasTheInvariant : Prop := State.reset.inv = true

/-- 10_state.md R12, R25, 43_translator.md R125: two states that differ only in leftCtrl and leftAlt step alike, and their next
states again differ only there. -/
def Obligations.CtrlAndAltAreUnobservable : Prop :=
  ∀ s t : State, s.sameButCtrlAlt t → sameOutcome (step s) (step t)

/-- 43_translator.md R125: XLATE's result depends on the byte, the two shift latches and the table alone. -/
def Obligations.XlateResultIgnoresCtrlAndAlt : Prop :=
  ∀ (raw : Byte) (s t : State), s.latches.leftShift = t.latches.leftShift →
    s.latches.rightShift = t.latches.rightShift → s.map = t.map →
    ∃ c s' t', exec (.xlate raw) s = .next s' ∧ exec (.xlate raw) t = .next t' ∧
      s'.rsp = some (.char c) ∧ t'.rsp = some (.char c)

/-- 10_state.md R14, 40_portio.md R74, 60_exceptions.md R153: an operation issued and then done event by event ends, within
132000 events, in the very state that calling it gives; and it is refused exactly when the call is. The same of a placed row
(log 10). That the model holds both grains is its choice (log 1). -/
def Obligations.IssuedOperationEndsAsCalled : Prop :=
  (∀ (s : State) (bytes : List Byte), ∃ n ≤ 132000,
    Host.Core.run core (n + 1) { s with slot := none, inbox := [.issue bytes] } =
      Host.Core.run core 1 { s with slot := none, inbox := [.call bytes] }) ∧
  (∀ (s : State) (f : Format) (bytes : List Byte), ∃ n ≤ 132000,
    Host.Core.run core (n + 1) { s with slot := some ⟨true, f, bytes⟩, inbox := [] } =
      Host.Core.run core 1 { s with slot := some ⟨false, f, bytes⟩, inbox := [] })
end

