-- ==== Sys2Proof/Laws/State.lean ====
section
/-!
SUPPORT. One lemma per field per update of the state and of the bus, so that no proof unfolds a record update.
-/

namespace Sys2Proof.Machine

/-! ## `State.respond` -/

@[simp] theorem State.respond_latches (s : State) (r : Response) : (s.respond r).latches = s.latches := rfl
@[simp] theorem State.respond_map (s : State) (r : Response) : (s.respond r).map = s.map := rfl
@[simp] theorem State.respond_hostMap (s : State) (r : Response) : (s.respond r).hostMap = s.hostMap := rfl
@[simp] theorem State.respond_inFlight (s : State) (r : Response) : (s.respond r).inFlight = s.inFlight := rfl
@[simp] theorem State.respond_bus (s : State) (r : Response) : (s.respond r).bus = s.bus := rfl
@[simp] theorem State.respond_inbox (s : State) (r : Response) : (s.respond r).inbox = s.inbox := rfl
@[simp] theorem State.respond_slot (s : State) (r : Response) : (s.respond r).slot = s.slot := rfl
@[simp] theorem State.respond_rsp (s : State) (r : Response) : (s.respond r).rsp = some r := rfl

/-! ## `State.finish` -/

@[simp] theorem State.finish_latches (s : State) (r : Option Response) : (s.finish r).latches = s.latches := rfl
@[simp] theorem State.finish_map (s : State) (r : Option Response) : (s.finish r).map = s.map := rfl
@[simp] theorem State.finish_hostMap (s : State) (r : Option Response) : (s.finish r).hostMap = s.hostMap := rfl
@[simp] theorem State.finish_inFlight (s : State) (r : Option Response) : (s.finish r).inFlight = none := rfl
@[simp] theorem State.finish_bus (s : State) (r : Option Response) : (s.finish r).bus = s.bus := rfl
@[simp] theorem State.finish_inbox (s : State) (r : Option Response) : (s.finish r).inbox = s.inbox := rfl
@[simp] theorem State.finish_slot (s : State) (r : Option Response) : (s.finish r).slot = s.slot := rfl
@[simp] theorem State.finish_rsp (s : State) (r : Option Response) : (s.finish r).rsp = r := rfl

/-! ## `State.sendCommand` -/

@[simp] theorem State.sendCommand_latches (s : State) (c : Command) : (s.sendCommand c).latches = s.latches := rfl
@[simp] theorem State.sendCommand_map (s : State) (c : Command) : (s.sendCommand c).map = s.map := rfl
@[simp] theorem State.sendCommand_hostMap (s : State) (c : Command) : (s.sendCommand c).hostMap = s.hostMap := rfl
@[simp] theorem State.sendCommand_inFlight (s : State) (c : Command) : (s.sendCommand c).inFlight = s.inFlight := rfl
@[simp] theorem State.sendCommand_bus (s : State) (c : Command) : (s.sendCommand c).bus = (writeRegister .cmd c.code s.bus).2 := rfl
@[simp] theorem State.sendCommand_inbox (s : State) (c : Command) : (s.sendCommand c).inbox = s.inbox := rfl
@[simp] theorem State.sendCommand_slot (s : State) (c : Command) : (s.sendCommand c).slot = s.slot := rfl
@[simp] theorem State.sendCommand_rsp (s : State) (c : Command) : (s.sendCommand c).rsp = none := rfl

/-! ## `State.applyReset` -/

@[simp] theorem State.applyReset_latches (s : State) : (s.applyReset).latches = Latches.zero := rfl
@[simp] theorem State.applyReset_map (s : State) : (s.applyReset).map = s.hostMap := rfl
@[simp] theorem State.applyReset_hostMap (s : State) : (s.applyReset).hostMap = s.hostMap := rfl
@[simp] theorem State.applyReset_inFlight (s : State) : (s.applyReset).inFlight = none := rfl
@[simp] theorem State.applyReset_bus (s : State) : (s.applyReset).bus = s.bus := rfl
@[simp] theorem State.applyReset_inbox (s : State) : (s.applyReset).inbox = s.inbox := rfl
@[simp] theorem State.applyReset_slot (s : State) : (s.applyReset).slot = s.slot := rfl
@[simp] theorem State.applyReset_rsp (s : State) : (s.applyReset).rsp = none := rfl

/-! ## `State.setHostEntry` -/

@[simp] theorem State.setHostEntry_latches (s : State) (i v : Byte) : (s.setHostEntry i v).latches = s.latches := rfl
@[simp] theorem State.setHostEntry_map (s : State) (i v : Byte) : (s.setHostEntry i v).map = s.map := rfl
@[simp] theorem State.setHostEntry_hostMap (s : State) (i v : Byte) : (s.setHostEntry i v).hostMap = s.hostMap.write i v := rfl
@[simp] theorem State.setHostEntry_inFlight (s : State) (i v : Byte) : (s.setHostEntry i v).inFlight = s.inFlight := rfl
@[simp] theorem State.setHostEntry_bus (s : State) (i v : Byte) : (s.setHostEntry i v).bus = s.bus := rfl
@[simp] theorem State.setHostEntry_inbox (s : State) (i v : Byte) : (s.setHostEntry i v).inbox = s.inbox := rfl
@[simp] theorem State.setHostEntry_slot (s : State) (i v : Byte) : (s.setHostEntry i v).slot = s.slot := rfl
@[simp] theorem State.setHostEntry_rsp (s : State) (i v : Byte) : (s.setHostEntry i v).rsp = s.rsp := rfl

/-! ## `State.consume` -/

@[simp] theorem State.consume_latches (s : State) : (s.consume).latches = s.latches := rfl
@[simp] theorem State.consume_map (s : State) : (s.consume).map = s.map := rfl
@[simp] theorem State.consume_hostMap (s : State) : (s.consume).hostMap = s.hostMap := rfl
@[simp] theorem State.consume_inFlight (s : State) : (s.consume).inFlight = s.inFlight := rfl
@[simp] theorem State.consume_bus (s : State) : (s.consume).bus = s.bus := rfl
@[simp] theorem State.consume_inbox (s : State) : (s.consume).inbox = s.inbox.tail := rfl
@[simp] theorem State.consume_slot (s : State) : (s.consume).slot = s.slot := rfl
@[simp] theorem State.consume_rsp (s : State) : (s.consume).rsp = none := rfl

/-! ## `State.takeSlot` -/

@[simp] theorem State.takeSlot_latches (s : State) : (s.takeSlot).latches = s.latches := rfl
@[simp] theorem State.takeSlot_map (s : State) : (s.takeSlot).map = s.map := rfl
@[simp] theorem State.takeSlot_hostMap (s : State) : (s.takeSlot).hostMap = s.hostMap := rfl
@[simp] theorem State.takeSlot_inFlight (s : State) : (s.takeSlot).inFlight = s.inFlight := rfl
@[simp] theorem State.takeSlot_bus (s : State) : (s.takeSlot).bus = s.bus := rfl
@[simp] theorem State.takeSlot_inbox (s : State) : (s.takeSlot).inbox = s.inbox := rfl
@[simp] theorem State.takeSlot_slot (s : State) : (s.takeSlot).slot = none := rfl
@[simp] theorem State.takeSlot_rsp (s : State) : (s.takeSlot).rsp = none := rfl

/-! ## `State.taken` -/

@[simp] theorem State.taken_latches (s : State) : (s.taken).latches = s.latches := by unfold State.taken; split <;> rfl
@[simp] theorem State.taken_map (s : State) : (s.taken).map = s.map := by unfold State.taken; split <;> rfl
@[simp] theorem State.taken_hostMap (s : State) : (s.taken).hostMap = s.hostMap := by unfold State.taken; split <;> rfl
@[simp] theorem State.taken_inFlight (s : State) : (s.taken).inFlight = s.inFlight := by unfold State.taken; split <;> rfl
@[simp] theorem State.taken_bus (s : State) : (s.taken).bus = s.bus := by unfold State.taken; split <;> rfl
@[simp] theorem State.taken_slot (s : State) : (s.taken).slot = none := by unfold State.taken; split <;> simp [*]
@[simp] theorem State.taken_rsp (s : State) : (s.taken).rsp = none := by unfold State.taken; split <;> rfl

/-! ## `State.withFetchWord` -/

@[simp] theorem State.withFetchWord_latches (s : State) (nbits w : Nat) : (s.withFetchWord nbits w).latches = s.latches := by
  unfold State.withFetchWord; split <;> rfl
@[simp] theorem State.withFetchWord_map (s : State) (nbits w : Nat) : (s.withFetchWord nbits w).map = s.map := by
  unfold State.withFetchWord; split <;> rfl
@[simp] theorem State.withFetchWord_hostMap (s : State) (nbits w : Nat) : (s.withFetchWord nbits w).hostMap = s.hostMap := by
  unfold State.withFetchWord; split <;> rfl
@[simp] theorem State.withFetchWord_inFlight (s : State) (nbits w : Nat) : (s.withFetchWord nbits w).inFlight = none := by
  unfold State.withFetchWord; split <;> rfl
@[simp] theorem State.withFetchWord_bus (s : State) (nbits w : Nat) : (s.withFetchWord nbits w).bus = s.bus := by
  unfold State.withFetchWord; split <;> rfl
@[simp] theorem State.withFetchWord_rsp (s : State) (nbits w : Nat) : (s.withFetchWord nbits w).rsp = s.rsp := by
  unfold State.withFetchWord; split <;> rfl

/-! ## `State.withCtrlAlt` -/

@[simp] theorem State.withCtrlAlt_latches (s : State) (c a : Bool) : (s.withCtrlAlt c a).latches = { s.latches with leftCtrl := c, leftAlt := a } := rfl
@[simp] theorem State.withCtrlAlt_map (s : State) (c a : Bool) : (s.withCtrlAlt c a).map = s.map := rfl
@[simp] theorem State.withCtrlAlt_hostMap (s : State) (c a : Bool) : (s.withCtrlAlt c a).hostMap = s.hostMap := rfl
@[simp] theorem State.withCtrlAlt_inFlight (s : State) (c a : Bool) : (s.withCtrlAlt c a).inFlight = s.inFlight := rfl
@[simp] theorem State.withCtrlAlt_bus (s : State) (c a : Bool) : (s.withCtrlAlt c a).bus = s.bus := rfl
@[simp] theorem State.withCtrlAlt_inbox (s : State) (c a : Bool) : (s.withCtrlAlt c a).inbox = s.inbox := rfl
@[simp] theorem State.withCtrlAlt_slot (s : State) (c a : Bool) : (s.withCtrlAlt c a).slot = s.slot := rfl
@[simp] theorem State.withCtrlAlt_rsp (s : State) (c a : Bool) : (s.withCtrlAlt c a).rsp = s.rsp := rfl

/-! ## The bus -/

@[simp] theorem ioRead_fst (p : Port) (b : Bus) : (ioRead p b).1 = b.answer := rfl
@[simp] theorem ioRead_script (p : Port) (b : Bus) : (ioRead p b).2.script = b.script.tail := rfl
@[simp] theorem ioRead_reads (p : Port) (b : Bus) : (ioRead p b).2.reads = b.reads + 1 := rfl
@[simp] theorem ioRead_log (p : Port) (b : Bus) : (ioRead p b).2.log = .read p b.answer :: b.log := rfl
@[simp] theorem ioWrite_script (p : Port) (v : Byte) (b : Bus) : (ioWrite p v b).script = b.script := rfl
@[simp] theorem ioWrite_reads (p : Port) (v : Byte) (b : Bus) : (ioWrite p v b).reads = b.reads := rfl
@[simp] theorem ioWrite_log (p : Port) (v : Byte) (b : Bus) : (ioWrite p v b).log = .write p v :: b.log := rfl
@[simp] theorem stall_script (b : Bus) : (stall b).script = b.script := rfl
@[simp] theorem stall_reads (b : Bus) : (stall b).reads = b.reads := rfl
@[simp] theorem stall_log (b : Bus) : (stall b).log = .stall :: b.log := rfl
@[simp] theorem readStatus_fst (b : Bus) : (readStatus b).1 = b.answer := rfl
@[simp] theorem readStatus_script (b : Bus) : (readStatus b).2.script = b.script.tail := rfl
@[simp] theorem readStatus_reads (b : Bus) : (readStatus b).2.reads = b.reads + 1 := rfl
@[simp] theorem readStatus_log (b : Bus) : (readStatus b).2.log = .read .statusCmd b.answer :: b.log := rfl
@[simp] theorem readData_fst (b : Bus) : (readData b).1 = b.answer := rfl
@[simp] theorem readData_script (b : Bus) : (readData b).2.script = b.script.tail := rfl
@[simp] theorem readData_reads (b : Bus) : (readData b).2.reads = b.reads + 1 := rfl
@[simp] theorem readData_log (b : Bus) : (readData b).2.log = .read .data b.answer :: b.log := rfl

/-! ## The latches and the status bits -/

@[simp] theorem Latches.shift_mk (c l r a : Bool) : Latches.shift ⟨c, l, r, a⟩ = (l || r) := rfl
@[simp] theorem decodeStatus_obf (s : Byte) : (decodeStatus s).obf = s[0] := rfl
@[simp] theorem decodeStatus_ibf (s : Byte) : (decodeStatus s).ibf = s[1] := rfl
@[simp] theorem decodeStatus_mouse (s : Byte) : (decodeStatus s).mouse = s[5] := rfl
@[simp] theorem decodeStatus_perr (s : Byte) : (decodeStatus s).perr = s[7] := rfl

/-! ## Views of a trace, event by event -/

@[simp] theorem statusReads_nil : statusReads [] = 0 := rfl
@[simp] theorem statusReads_status (v : Byte) (tr : List Event) :
    statusReads (.read .statusCmd v :: tr) = statusReads tr + 1 := by simp [statusReads]
@[simp] theorem statusReads_data (v : Byte) (tr : List Event) : statusReads (.read .data v :: tr) = statusReads tr := by
  simp [statusReads]
@[simp] theorem statusReads_write (p : Port) (v : Byte) (tr : List Event) :
    statusReads (.write p v :: tr) = statusReads tr := by simp [statusReads]
@[simp] theorem statusReads_stall (tr : List Event) : statusReads (.stall :: tr) = statusReads tr := by
  simp [statusReads]
@[simp] theorem statusReads_append (x y : List Event) : statusReads (x ++ y) = statusReads x + statusReads y := by
  simp [statusReads]
@[simp] theorem dataReads_nil : dataReads [] = 0 := rfl
@[simp] theorem dataReads_status (v : Byte) (tr : List Event) :
    dataReads (.read .statusCmd v :: tr) = dataReads tr := by simp [dataReads]
@[simp] theorem dataReads_data (v : Byte) (tr : List Event) : dataReads (.read .data v :: tr) = dataReads tr + 1 := by
  simp [dataReads]
@[simp] theorem dataReads_write (p : Port) (v : Byte) (tr : List Event) :
    dataReads (.write p v :: tr) = dataReads tr := by simp [dataReads]
@[simp] theorem dataReads_stall (tr : List Event) : dataReads (.stall :: tr) = dataReads tr := by simp [dataReads]
@[simp] theorem dataReads_append (x y : List Event) : dataReads (x ++ y) = dataReads x + dataReads y := by
  simp [dataReads]
@[simp] theorem stalls_nil : stalls [] = 0 := rfl
@[simp] theorem stalls_read (p : Port) (v : Byte) (tr : List Event) : stalls (.read p v :: tr) = stalls tr := by
  simp [stalls]
@[simp] theorem stalls_write (p : Port) (v : Byte) (tr : List Event) : stalls (.write p v :: tr) = stalls tr := by
  simp [stalls]
@[simp] theorem stalls_stall (tr : List Event) : stalls (.stall :: tr) = stalls tr + 1 := by simp [stalls]
@[simp] theorem stalls_append (x y : List Event) : stalls (x ++ y) = stalls x + stalls y := by simp [stalls]
@[simp] theorem writes_nil : writes [] = [] := rfl
@[simp] theorem writes_read (p : Port) (v : Byte) (tr : List Event) : writes (.read p v :: tr) = writes tr := by
  simp [writes]
@[simp] theorem writes_write (p : Port) (v : Byte) (tr : List Event) :
    writes (.write p v :: tr) = (p, v) :: writes tr := by simp [writes]
@[simp] theorem writes_stall (tr : List Event) : writes (.stall :: tr) = writes tr := by simp [writes]
@[simp] theorem writes_append (x y : List Event) : writes (x ++ y) = writes x ++ writes y := by simp [writes]

end Sys2Proof.Machine
end

