-- ==== Sys2Proof/Laws/Ops.lean ====
section
/-!
SUPPORT. For each shared operation, one lemma that says what it can do. Later proofs cite these and do not unfold the
operation.
-/

namespace Sys2Proof.Machine

/-! ## The bus as a sequence of answers and a growing trace -/

theorem Bus.after_zero (b : Bus) : b.after 0 [] = b := rfl

theorem Bus.after_after (b : Bus) (k j : Nat) (x y : List Event) : (b.after k x).after j y = b.after (k + j) (y ++ x) := by
  simp [Bus.after, Nat.add_assoc]

theorem Bus.upcoming_after (b : Bus) (k j : Nat) (x : List Event) : (b.after k x).upcoming j = b.upcoming (k + j) := by
  simp [Bus.after, Bus.upcoming, Nat.add_assoc]

theorem Bus.answer_eq (b : Bus) : b.answer = b.upcoming 0 := by
  cases h : b.script <;> simp [Bus.answer, Bus.upcoming, h]

@[simp] theorem Bus.after_log (b : Bus) (k : Nat) (x : List Event) : (b.after k x).log = x ++ b.log := rfl

theorem readStatus_eq (b : Bus) : readStatus b = (b.upcoming 0, b.after 1 [.read .statusCmd (b.upcoming 0)]) := by
  rw [← Bus.answer_eq]; cases h : b.script <;> simp [readStatus, ioRead, Bus.after, h]

theorem readData_eq (b : Bus) : readData b = (b.upcoming 0, b.after 1 [.read .data (b.upcoming 0)]) := by
  rw [← Bus.answer_eq]; cases h : b.script <;> simp [readData, ioRead, Bus.after, h]

theorem stall_eq (b : Bus) : stall b = b.after 0 [.stall] := rfl

theorem ioWrite_eq (p : Port) (v : Byte) (b : Bus) : ioWrite p v b = b.after 0 [.write p v] := rfl

/-! ## `ReadByte`: three cases -/

theorem readByte_noData (b : Bus) (h : (b.upcoming 0)[0] = false) :
    readByte b = (none, b.after 1 [.read .statusCmd (b.upcoming 0)]) := by
  simp [readByte, readStatus_eq, h]

theorem readByte_parity (b : Bus) (h : (b.upcoming 0)[0] = true) (hp : (b.upcoming 0)[7] = true) :
    readByte b = (none, b.after 2 [.read .data (b.upcoming 1), .read .statusCmd (b.upcoming 0)]) := by
  simp [readByte, readStatus_eq, readData_eq, h, hp, Bus.upcoming_after, Bus.after_after]

theorem readByte_ok (b : Bus) (h : (b.upcoming 0)[0] = true) (hp : (b.upcoming 0)[7] = false) :
    readByte b = (some (b.upcoming 1, (b.upcoming 0)[5]),
      b.after 2 [.read .data (b.upcoming 1), .read .statusCmd (b.upcoming 0)]) := by
  simp [readByte, readStatus_eq, readData_eq, h, hp, Bus.upcoming_after, Bus.after_after]

/-! ## `WriteRegister` -/

theorem writeLoop_busy (r : WriteReg) (v : Byte) (b : Bus) (n k : Nat)
    (hb : ∀ j < k, (b.upcoming j)[1] = true) :
    writeLoop r v (k + n) b = writeLoop r v n (b.after k (busyPasses b k)) := by
  induction k generalizing n with
  | zero => simp [busyPasses, Bus.after_zero]
  | succ k ih =>
    rw [show k + 1 + n = k + (n + 1) by omega, ih (n + 1) fun j hj => hb j (by omega), writeLoop]
    simp [readStatus_eq, stall_eq, Bus.upcoming_after, Bus.after_after, hb k (by omega), busyPasses]

theorem writeLoop_ok (r : WriteReg) (v : Byte) (b : Bus) (n k : Nat) (hk : k < n)
    (hb : ∀ j < k, (b.upcoming j)[1] = true) (hc : (b.upcoming k)[1] = false) :
    writeLoop r v n b = (true, b.after (k + 1)
      (.write r.port v :: .read .statusCmd (b.upcoming k) :: busyPasses b k)) := by
  obtain ⟨m, rfl⟩ : ∃ m, n = k + (m + 1) := ⟨n - k - 1, by omega⟩
  rw [writeLoop_busy r v b (m + 1) k hb, writeLoop]
  simp [readStatus_eq, ioWrite_eq, Bus.upcoming_after, Bus.after_after, hc]

theorem writeLoop_fail (r : WriteReg) (v : Byte) (b : Bus) (n : Nat)
    (hb : ∀ j < n, (b.upcoming j)[1] = true) :
    writeLoop r v n b = (false, b.after n (busyPasses b n)) := by
  have h := writeLoop_busy r v b 0 n hb
  simpa [writeLoop] using h

/-- Everything `writeLoop` can do: write after `k` busy passes, or give up after `n`. -/
theorem writeLoop_cases (n : Nat) (b : Bus) :
    (∃ k < n, (∀ j < k, (b.upcoming j)[1] = true) ∧ (b.upcoming k)[1] = false) ∨
    (∀ j < n, (b.upcoming j)[1] = true) := by
  induction n with
  | zero => exact .inr fun j hj => absurd hj (Nat.not_lt_zero j)
  | succ n ih =>
    rcases ih with ⟨k, hk, h⟩ | h
    · exact .inl ⟨k, by omega, h⟩
    · cases hn : (b.upcoming n)[1] with
      | false => exact .inl ⟨n, by omega, h, hn⟩
      | true =>
        refine .inr fun j hj => ?_
        rcases Nat.lt_succ_iff_lt_or_eq.mp hj with hj | rfl
        · exact h j hj
        · exact hn

/-! ## The poller -/

theorem pollLoop_failed (u : Bool) (b : Bus) (n k : Nat) (hf : ∀ j < k, (readByte (failedPasses b j)).1 = none) :
    pollLoop u (k + n) b = pollLoop u n (failedPasses b k) := by
  induction k generalizing n with
  | zero => simp [failedPasses]
  | succ k ih =>
    rw [show k + 1 + n = k + (n + 1) by omega, ih (n + 1) fun j hj => hf j (by omega)]
    have h := hf k (by omega)
    cases hr : readByte (failedPasses b k) with
    | mk o b' =>
      rw [hr] at h
      cases h
      simp [pollLoop, failedPasses, hr]

theorem pollLoop_ok (u : Bool) (b : Bus) (n k : Nat) (hk : k < n) (hf : ∀ j < k, (readByte (failedPasses b j)).1 = none)
    (v : Byte) (m : Bool) (b' : Bus) (hr : readByte (failedPasses b k) = (some (v, m), b')) :
    pollLoop u n b = (.polled v m, if u then unget v b' else b') := by
  obtain ⟨l, rfl⟩ : ∃ l, n = k + (l + 1) := ⟨n - k - 1, by omega⟩
  rw [pollLoop_failed u b (l + 1) k hf, pollLoop, hr]

theorem pollLoop_timeout (u : Bool) (b : Bus) (n : Nat) (hf : ∀ j < n, (readByte (failedPasses b j)).1 = none) :
    pollLoop u n b = (.timeout, failedPasses b n) := by
  simpa [pollLoop] using pollLoop_failed u b 0 n hf

/-- Everything `pollLoop` can do: succeed after `k` failed passes, or give up after `n`. -/
theorem pollLoop_cases (n : Nat) (b : Bus) :
    (∃ k < n, ∃ v m b', (∀ j < k, (readByte (failedPasses b j)).1 = none) ∧
      readByte (failedPasses b k) = (some (v, m), b')) ∨
    (∀ j < n, (readByte (failedPasses b j)).1 = none) := by
  induction n with
  | zero => exact .inr fun j hj => absurd hj (Nat.not_lt_zero j)
  | succ n ih =>
    rcases ih with ⟨k, hk, h⟩ | h
    · exact .inl ⟨k, by omega, h⟩
    · rcases hn : readByte (failedPasses b n) with ⟨_ | ⟨v, m⟩, b'⟩
      · refine .inr fun j hj => ?_
        rcases Nat.lt_succ_iff_lt_or_eq.mp hj with hj | rfl
        · exact h j hj
        · rw [hn]
      · exact .inl ⟨n, by omega, v, m, b', h, hn⟩

/-! ## The translator -/

theorem keyChar_unshifted (c : Byte) : keyChar false c = c := rfl

theorem keyChar_digit (c : Byte) (h : isDigit c = true) : keyChar true c = digitShift c := by
  simp [keyChar, h]

theorem keyChar_lower (c : Byte) (h : isLower c = true) : keyChar true c = c - 0x20 := by
  have hd : isDigit c = false := by
    simp only [isLower, Bool.and_eq_true, decide_eq_true_eq] at h
    simp only [isDigit, Bool.and_eq_false_iff, decide_eq_false_iff_not]
    omega
  simp [keyChar, h, hd, upper]

theorem keyChar_other (s : Bool) (c : Byte) (hd : isDigit c = false) (hl : isLower c = false) : keyChar s c = c := by
  simp [keyChar, hd, hl]

/-! ## Taking a request, and advancing -/

theorem accept_busy (run : Instr → State → Host.Outcome State Fault Refusal) (f : Format) (bs : List Byte) (s : State)
    (p : InFlight) (h : s.inFlight = some p) : accept run f bs s = .refused .overlappingRequest := by
  simp [accept, h]

theorem accept_ok (run : Instr → State → Host.Outcome State Fault Refusal) (f : Format) (bs : List Byte) (s : State)
    (i : Instr) (h : s.inFlight = none) (hd : decode f bs = .ok i) : accept run f bs s = run i s := by
  simp [accept, h, hd]

theorem accept_error (run : Instr → State → Host.Outcome State Fault Refusal) (f : Format) (bs : List Byte) (s : State)
    (e : DecodeError) (h : s.inFlight = none) (hd : decode f bs = .error e) :
    accept run f bs s = .refused (.badEncoding e) := by
  simp [accept, h, hd]

theorem advance_idle (s : State) (h : s.inFlight = none) : advance s = s := by simp [advance, h]

theorem advance_busy (s : State) (p : InFlight) (h : s.inFlight = some p) : advance s = tick p s := by simp [advance, h]

/-! ## The encoding -/

theorem scBase_scByte (r : Bool) (base : BitVec 7) : scBase (scByte r base) = base := by
  cases r <;> ext i hi <;> simp [scBase, scByte]

theorem scRelease_scByte (r : Bool) (base : BitVec 7) : scRelease (scByte r base) = r := by
  cases r <;> simp [scRelease, scByte, BitVec.getElem_setWidth]

/-- Everything `decodeCommand` can answer. -/
theorem decodeCommand_code (c : Command) : decodeCommand c.code = some c := by cases c <;> rfl

end Sys2Proof.Machine
end

