-- ==== Sys2Proof/Laws/PerInstr.lean ====
section
/-!
SUPPORT. The family of statements made once for every instruction: its encoding has the length of its format, and a request
word's unused bits, 15 to 11, are 0 (spec 30_encoding.md R50, R55; log 9).
-/

namespace Sys2Proof.Laws.EncodingShape

/-- The encoding has as many bytes as the format, and a second byte is below 8. -/
def Statement (i : Instr) : Prop :=
  (encode i).length = i.format.byteCount ∧ ∀ b ∈ (encode i).tail, b.toNat < 8

theorem poll (u : Bool) : Statement (.poll u) := by cases u <;> exact ⟨rfl, by decide⟩
theorem xlate (raw : Byte) : Statement (.xlate raw) := by
  refine ⟨rfl, fun b hb => ?_⟩
  simp only [encode, reqBytes, List.tail_cons, List.mem_singleton] at hb
  subst hb
  exact lt_of_le_of_lt (by simp; exact Nat.mod_le _ _) (BitVec.isLt ((reqWord 1 false raw).extractLsb' 8 3))
theorem setmouse (e : Bool) : Statement (.setmouse e) := by cases e <;> exact ⟨rfl, by decide⟩
theorem init : Statement .init := ⟨rfl, by decide⟩
theorem scLctrl (r : Bool) : Statement (.scLctrl r) := ⟨rfl, by simp [encode]⟩
theorem scLshift (r : Bool) : Statement (.scLshift r) := ⟨rfl, by simp [encode]⟩
theorem scRshift (r : Bool) : Statement (.scRshift r) := ⟨rfl, by simp [encode]⟩
theorem scLalt (r : Bool) : Statement (.scLalt r) := ⟨rfl, by simp [encode]⟩
theorem scBreak (base : BitVec 7) : Statement (.scBreak base) := ⟨rfl, by simp [encode]⟩
theorem scCtrlbyte : Statement .scCtrlbyte := ⟨rfl, by simp [encode]⟩
theorem scKey (base : BitVec 7) : Statement (.scKey base) := ⟨rfl, by simp [encode]⟩
theorem cmdDiskbd : Statement .cmdDiskbd := ⟨rfl, by simp [encode]⟩
theorem cmdWrout : Statement .cmdWrout := ⟨rfl, by simp [encode]⟩
theorem cmdEnkbd : Statement .cmdEnkbd := ⟨rfl, by simp [encode]⟩
theorem cmdDismouse : Statement .cmdDismouse := ⟨rfl, by simp [encode]⟩
theorem cmdEnmouse : Statement .cmdEnmouse := ⟨rfl, by simp [encode]⟩

end Sys2Proof.Laws.EncodingShape
end

