-- ==== Sys2Proof/Laws/Run.lean ====
section
/-!
SUPPORT. What `Host.Core.run` does over this machine, one step at a time, and how two runs join.
-/

namespace Sys2Proof.Machine

theorem run_next_of (M : Host.Core) (k : Nat) (s t : M.State) (h : M.step s = .next t) :
    M.run (k + 1) s = M.run k t := by simp only [Host.Core.run, h]

theorem run_refused_of (M : Host.Core) (k : Nat) (s : M.State) (r : M.Refusal) (h : M.step s = .refused r) :
    M.run (k + 1) s = .refused r := by simp only [Host.Core.run, h]

/-- A run goes on after a next state. -/
theorem core_run_next (k : Nat) (s t : State) (h : step s = .next t) :
    Host.Core.run core (k + 1) s = Host.Core.run core k t := run_next_of core k s t h

/-- A run ends at a refusal. -/
theorem core_run_refused (k : Nat) (s : State) (r : Refusal) (h : step s = .refused r) :
    Host.Core.run core (k + 1) s = .refused r := run_refused_of core k s r h

/-- A run of one step is the step. -/
theorem core_run_one (s : State) : Host.Core.run core 1 s = step s := by
  cases h : step s with
  | next t => exact core_run_next 0 s t h
  | refused r => exact core_run_refused 0 s r h
  | fault r => exact nomatch r

/-- A run that reaches a state goes on from there. -/
theorem core_run_add (a b : Nat) (s t : State) (h : Host.Core.run core a s = .next t) :
    Host.Core.run core (a + b) s = Host.Core.run core b t := by
  induction a generalizing s with
  | zero => cases h; rw [Nat.zero_add]
  | succ a ih =>
    cases hs : step s with
    | next s' =>
      have h' := ih s' ((core_run_next a s s' hs).symm.trans h)
      exact (congrArg (Host.Core.run core · s) (Nat.succ_add a b)).trans ((core_run_next (a + b) s s' hs).trans h')
    | refused r => exact nomatch (core_run_refused a s r hs).symm.trans h
    | fault r => exact nomatch r

end Sys2Proof.Machine
end

