-- ==== Sys2Proof/Laws/Sequencer.lean ====
section
/-!
SUPPORT. What one event of an operation in flight does, what issuing an operation does, and, once for all, what a step can
do.
-/

namespace Sys2Proof.Machine

/-! ## What stays under `afterWrite`, `afterRead`, `tick`, `advance` -/

/-- The parts of the state that no port operation touches. -/
structure State.SameBlock (s t : State) : Prop where
  latches : t.latches = s.latches
  map : t.map = s.map
  hostMap : t.hostMap = s.hostMap
  inbox : t.inbox = s.inbox
  slot : t.slot = s.slot

theorem afterWrite_same (k : Caller) (s : State) : s.SameBlock (afterWrite k s) := by
  unfold afterWrite
  split
  · exact ⟨rfl, rfl, rfl, rfl, rfl⟩
  · split <;> exact ⟨rfl, rfl, rfl, rfl, rfl⟩
  · exact ⟨rfl, rfl, rfl, rfl, rfl⟩

@[simp] theorem afterWrite_bus (k : Caller) (s : State) : (afterWrite k s).bus = s.bus := by
  unfold afterWrite
  split
  · rfl
  · split <;> rfl
  · rfl

theorem afterRead_same (u : Bool) (b : Byte) (m : Bool) (s : State) : s.SameBlock (afterRead u b m s) := by
  cases u <;> exact ⟨rfl, rfl, rfl, rfl, rfl⟩

@[simp] theorem afterRead_bus (u : Bool) (b : Byte) (m : Bool) (s : State) : (afterRead u b m s).bus = s.bus := by
  cases u <;> rfl

theorem tick_same (p : InFlight) (s : State) : s.SameBlock (tick p s) := by
  have trans : ∀ (b : Bus) (t : State), State.SameBlock { s with bus := b } t → s.SameBlock t :=
    fun _ _ h => ⟨h.1, h.2, h.3, h.4, h.5⟩
  cases p with
  | pollStatus u n => exact ⟨rfl, rfl, rfl, rfl, rfl⟩
  | pollData u n snap =>
    rw [tick]
    split
    · exact ⟨rfl, rfl, rfl, rfl, rfl⟩
    · exact trans _ _ (afterRead_same ..)
  | pollStall u n => rw [tick]; split <;> exact ⟨rfl, rfl, rfl, rfl, rfl⟩
  | writeStatus k n => exact ⟨rfl, rfl, rfl, rfl, rfl⟩
  | writeByte k n snap => exact trans _ _ (afterWrite_same ..)
  | writeStall k n =>
    rw [tick]
    split
    · exact trans _ _ (afterWrite_same ..)
    · exact ⟨rfl, rfl, rfl, rfl, rfl⟩

/-- The event that an operation in flight does next, on the bus `b`. -/
def InFlight.event (b : Bus) : InFlight → Event
  | .pollStatus _ _ => .read .statusCmd (b.upcoming 0)
  | .pollData _ _ _ => .read .data (b.upcoming 0)
  | .pollStall _ _ => .stall
  | .writeStatus _ _ => .read .statusCmd (b.upcoming 0)
  | .writeByte k _ _ => .write k.target.1.port k.target.2
  | .writeStall _ _ => .stall

/-- A tick is exactly one event. -/
theorem tick_bus (p : InFlight) (s : State) :
    (tick p s).bus = s.bus.after (statusReads [p.event s.bus] + dataReads [p.event s.bus]) [p.event s.bus] := by
  cases p with
  | pollStatus u n => simp [tick, InFlight.event, readStatus_eq]
  | pollData u n snap => rw [tick]; split <;> simp [InFlight.event, readData_eq]
  | pollStall u n => rw [tick]; split <;> simp [InFlight.event, stall_eq]
  | writeStatus k n => simp [tick, InFlight.event, readStatus_eq]
  | writeByte k n snap => simp [tick, InFlight.event, ioWrite_eq]
  | writeStall k n => rw [tick]; split <;> simp [InFlight.event, stall_eq]

theorem advance_same (s : State) : s.SameBlock (advance s) := by
  unfold advance
  split
  · exact tick_same ..
  · exact ⟨rfl, rfl, rfl, rfl, rfl⟩

/-! ## Issuing -/

@[simp] theorem startWrite_latches (k : Caller) (s : State) : (startWrite k s).latches = s.latches := rfl
@[simp] theorem startWrite_map (k : Caller) (s : State) : (startWrite k s).map = s.map := rfl
@[simp] theorem startWrite_hostMap (k : Caller) (s : State) : (startWrite k s).hostMap = s.hostMap := rfl
@[simp] theorem startWrite_bus (k : Caller) (s : State) : (startWrite k s).bus = s.bus := rfl
@[simp] theorem startWrite_inbox (k : Caller) (s : State) : (startWrite k s).inbox = s.inbox := rfl
@[simp] theorem startWrite_slot (k : Caller) (s : State) : (startWrite k s).slot = s.slot := rfl
@[simp] theorem startWrite_rsp (k : Caller) (s : State) : (startWrite k s).rsp = s.rsp := rfl
@[simp] theorem startWrite_inFlight (k : Caller) (s : State) : (startWrite k s).inFlight = some (.writeStatus k Config.budget) := rfl

/-- Issuing an operation either does it at once or puts it in flight and changes nothing else. -/
theorem start_cases (i : Instr) (s : State) :
    start i s = exec i s ∨ ∃ p, start i s = .next { s with inFlight := some p } := by
  cases i with
  | poll u => exact .inr ⟨_, rfl⟩
  | setmouse e => exact .inr ⟨_, rfl⟩
  | cmdDiskbd => exact .inr ⟨_, rfl⟩
  | cmdWrout => exact .inr ⟨_, rfl⟩
  | cmdEnkbd => exact .inr ⟨_, rfl⟩
  | cmdDismouse => exact .inr ⟨_, rfl⟩
  | cmdEnmouse => exact .inr ⟨_, rfl⟩
  | _ => exact .inl rfl

/-! ## What a step can do -/

theorem accept_next (run : Instr → State → Host.Outcome State Fault Refusal) (f : Format) (bs : List Byte) (s t : State)
    (h : accept run f bs s = .next t) : s.inFlight = none ∧ ∃ i, decode f bs = .ok i ∧ run i s = .next t := by
  unfold accept at h
  split at h
  · cases h
  · split at h
    · exact ⟨‹_›, _, ‹_›, h⟩
    · cases h

/-- Everything a step on an input that goes on can have done. -/
theorem stepInput_cases (s t : State) (h : stepInput s = .next t) :
    (∃ bs rest i, s.inbox = .call bs :: rest ∧ s.inFlight = none ∧ decode .req bs = .ok i ∧ exec i s.consume = .next t) ∨
    (∃ bs rest i, s.inbox = .issue bs :: rest ∧ s.inFlight = none ∧ decode .req bs = .ok i ∧
      start i s.consume = .next t) ∨
    (∃ rest, s.inbox = .reset :: rest ∧ t = s.consume.applyReset) ∨
    (∃ i v rest, s.inbox = .table i v :: rest ∧ t = s.consume.setHostEntry i v) ∨
    t = advance s.consume := by
  unfold stepInput at h
  split at h
  · obtain ⟨hf, i, hd, hr⟩ := accept_next _ _ _ _ _ h
    exact .inl ⟨_, _, i, ‹_›, hf, hd, hr⟩
  · obtain ⟨hf, i, hd, hr⟩ := accept_next _ _ _ _ _ h
    exact .inr (.inl ⟨_, _, i, ‹_›, hf, hd, hr⟩)
  · cases h; exact .inr (.inr (.inl ⟨_, ‹_›, rfl⟩))
  · cases h; exact .inr (.inr (.inr (.inl ⟨_, _, _, ‹_›, rfl⟩)))
  · cases h; exact .inr (.inr (.inr (.inr rfl)))
  · cases h; exact .inr (.inr (.inr (.inr rfl)))

/-- Everything a step on a placed row that goes on can have done. -/
theorem stepSlot_cases (w : Slot) (s t : State) (h : stepSlot w s = .next t) :
    s.inFlight = none ∧ ∃ i, decode w.format w.bytes = .ok i ∧
      ((w.events = false ∧ exec i s.takeSlot = .next t) ∨ (w.events = true ∧ start i s.takeSlot = .next t)) := by
  obtain ⟨hf, i, hd, hr⟩ := accept_next _ _ _ _ _ h
  refine ⟨hf, i, hd, ?_⟩
  split at hr
  · exact .inr ⟨‹_›, hr⟩
  · exact .inl ⟨Bool.eq_false_iff.mpr ‹_›, hr⟩

theorem step_of_slot (s : State) (w : Slot) (h : s.slot = some w) : step s = stepSlot w s := by unfold step; rw [h]

theorem step_of_no_slot (s : State) (h : s.slot = none) : step s = stepInput s := by unfold step; rw [h]

theorem decoded_ok (f : Format) (bs : List Byte) (i : Instr) (h : decode f bs = .ok i) : decoded f bs = some i := by
  unfold decoded; rw [h]

/-- Everything a step that goes on can have done. -/
theorem step_cases (s t : State) (h : step s = .next t) :
    (∃ i, s.nextInstr = some i ∧ s.inFlight = none ∧ (exec i s.taken = .next t ∨ start i s.taken = .next t)) ∨
    (s.nextIsReset ∧ t = s.consume.applyReset) ∨
    (s.slot = none ∧ ((∃ i v rest, s.inbox = .table i v :: rest ∧ t = s.consume.setHostEntry i v) ∨
      t = advance s.consume)) := by
  cases hs : s.slot with
  | some w =>
    rw [step_of_slot s w hs] at h
    obtain ⟨hf, i, hd, hr⟩ := stepSlot_cases w s t h
    refine .inl ⟨i, ?_, hf, ?_⟩
    · unfold State.nextInstr; rw [hs]; exact decoded_ok _ _ _ hd
    · unfold State.taken; rw [hs]
      exact hr.imp And.right And.right
  | none =>
    rw [step_of_no_slot s hs] at h
    have ht : s.taken = s.consume := by unfold State.taken; rw [hs]
    rcases stepInput_cases s t h with ⟨bs, rest, i, hi, hf, hd, hr⟩ | ⟨bs, rest, i, hi, hf, hd, hr⟩ | ⟨rest, hi, hr⟩ |
      hr | hr
    · refine .inl ⟨i, ?_, hf, .inl (by rw [ht]; exact hr)⟩
      unfold State.nextInstr; rw [hs, hi]; exact decoded_ok _ _ _ hd
    · refine .inl ⟨i, ?_, hf, .inr (by rw [ht]; exact hr)⟩
      unfold State.nextInstr; rw [hs, hi]; exact decoded_ok _ _ _ hd
    · exact .inr (.inl ⟨⟨hs, rest, hi⟩, hr⟩)
    · exact .inr (.inr ⟨rfl, .inl hr⟩)
    · exact .inr (.inr ⟨rfl, .inr hr⟩)

end Sys2Proof.Machine
end

