-- ==== Sys2Proof/Laws/Table.lean ====
section
/-!
SUPPORT. The laws of the scancode table: every operation on it keeps the canonical form, and what a read gives.
-/

namespace Sys2Proof.Machine

@[simp] theorem Table.get_nil (a : Nat) : Table.get [] a = 0 := rfl

theorem Table.get_cons (k : Nat) (v : Byte) (t : Table) (a : Nat) :
    Table.get ((k, v) :: t) a = if k = a then v else Table.get t a := rfl

theorem Table.wfFrom_cons (lo k : Nat) (v : Byte) (t : Table) :
    Table.wfFrom lo ((k, v) :: t) = true ↔ lo ≤ k ∧ k < 256 ∧ v ≠ 0 ∧ Table.wfFrom (k + 1) t = true := by
  simp [Table.wfFrom, and_assoc]

theorem Table.wfFrom_mono (lo lo' : Nat) (t : Table) (h : lo' ≤ lo) (ht : Table.wfFrom lo t = true) :
    Table.wfFrom lo' t = true := by
  cases t with
  | nil => rfl
  | cons c t =>
    obtain ⟨k, v⟩ := c
    rw [Table.wfFrom_cons] at *
    exact ⟨by omega, ht.2⟩

/-- Below its first index a canonical table reads as 0. -/
theorem Table.get_below (lo : Nat) (t : Table) (a : Nat) (h : a < lo) (ht : Table.wfFrom lo t = true) :
    t.get a = 0 := by
  induction t generalizing lo with
  | nil => rfl
  | cons c t ih =>
    obtain ⟨k, v⟩ := c
    rw [Table.wfFrom_cons] at ht
    rw [Table.get_cons, if_neg (by omega)]
    exact ih (k + 1) (by omega) ht.2.2.2

/-- `Table.set` keeps the canonical form from `lo` on. -/
theorem Table.wfFrom_set (lo : Nat) (t : Table) (a : Nat) (v : Byte) (ha : a < 256) (hlo : lo ≤ a)
    (ht : Table.wfFrom lo t = true) : Table.wfFrom lo (t.set a v) = true := by
  induction t generalizing lo with
  | nil =>
    rw [Table.set]
    split
    · rfl
    · exact (Table.wfFrom_cons ..).mpr ⟨hlo, ha, ‹_›, rfl⟩
  | cons c t ih =>
    obtain ⟨k, w⟩ := c
    have h := (Table.wfFrom_cons ..).mp ht
    rw [Table.set]
    split
    · split
      · exact ht
      · exact (Table.wfFrom_cons ..).mpr ⟨hlo, ha, ‹_›, (Table.wfFrom_cons ..).mpr ⟨by omega, h.2⟩⟩
    · split
      · subst a
        split
        · exact Table.wfFrom_mono _ _ _ (by omega) h.2.2.2
        · exact (Table.wfFrom_cons ..).mpr ⟨h.1, h.2.1, ‹_›, h.2.2.2⟩
      · exact (Table.wfFrom_cons ..).mpr ⟨h.1, h.2.1, h.2.2.1, ih (k + 1) (by omega) h.2.2.2⟩

/-- What a table reads after `Table.set`. -/
theorem Table.get_set (lo : Nat) (t : Table) (a : Nat) (v : Byte) (j : Nat) (ht : Table.wfFrom lo t = true) :
    (t.set a v).get j = if a = j then v else t.get j := by
  induction t generalizing lo with
  | nil =>
    rw [Table.set]
    split
    · subst v; simp
    · rw [Table.get_cons]
  | cons c t ih =>
    obtain ⟨k, w⟩ := c
    have h := (Table.wfFrom_cons ..).mp ht
    rw [Table.set]
    split
    · split
      · split
        · subst v j
          exact Table.get_below k _ a ‹_› ((Table.wfFrom_cons ..).mpr ⟨le_refl k, h.2⟩)
        · rfl
      · rw [Table.get_cons]
    · split
      · subst a
        split
        · rw [Table.get_cons]
          split
          · subst v j
            exact Table.get_below (k + 1) t k (by omega) h.2.2.2
          · rfl
        · rw [Table.get_cons, Table.get_cons]; split <;> rfl
      · rw [Table.get_cons, Table.get_cons, ih (k + 1) h.2.2.2]
        split
        · subst j; rw [if_neg ‹_›]
        · rfl

/-- `Table.ofFnFrom` is in canonical form. -/
theorem Table.wfFrom_ofFnFrom (f : Byte → Byte) (lo n : Nat) (h : lo + n ≤ 256) :
    Table.wfFrom lo (Table.ofFnFrom f lo n) = true := by
  induction n generalizing lo with
  | zero => rfl
  | succ n ih =>
    rw [Table.ofFnFrom]
    split
    · exact Table.wfFrom_mono _ _ _ (by omega) (ih (lo + 1) (by omega))
    · exact (Table.wfFrom_cons ..).mpr ⟨le_refl lo, by omega, ‹_›, ih (lo + 1) (by omega)⟩

/-- What `Table.ofFnFrom` reads. -/
theorem Table.get_ofFnFrom (f : Byte → Byte) (lo n a : Nat) (h : lo + n ≤ 256) :
    (Table.ofFnFrom f lo n).get a = if lo ≤ a ∧ a < lo + n then f (BitVec.ofNat 8 a) else 0 := by
  induction n generalizing lo with
  | zero => simp [Table.ofFnFrom, show ¬(lo ≤ a ∧ a < lo) by omega]
  | succ n ih =>
    rw [Table.ofFnFrom]
    by_cases hl : lo = a
    · subst hl
      have hb : Table.get (Table.ofFnFrom f (lo + 1) n) lo = 0 :=
        Table.get_below (lo + 1) _ lo (by omega) (Table.wfFrom_ofFnFrom f _ _ (by omega))
      rw [if_pos (show lo ≤ lo ∧ lo < lo + (n + 1) by omega)]
      split
      · rw [hb]; exact (‹f _ = 0›).symm
      · rw [Table.get_cons, if_pos rfl]
    · have hi := ih (lo + 1) (by omega)
      have hc : (lo + 1 ≤ a ∧ a < lo + 1 + n) ↔ (lo ≤ a ∧ a < lo + (n + 1)) := by omega
      simp only [hc] at hi
      split
      · exact hi
      · rw [Table.get_cons, if_neg hl]; exact hi

end Sys2Proof.Machine
end

