-- ==== Sys2Proof/Tests/Slice0.lean ====
section
/-!
SUPPORT. The model's own tests: ill-formed terms, words written out from the encoding tables, single steps from
spec/95_test_vectors.md (their numbers stand in the comments), and for each statement with hypotheses a state and operands
that meet them.
-/

namespace Sys2Proof.Tests

open Sys2Proof Sys2Proof.Machine

/-! ## Helpers -/

/-- A bus whose next answers are `script`. -/
def busOf (script : List Byte) : Bus := ⟨script, 0, []⟩

/-- An idle block with these latches, this table (bound and offered) and these answers to come. -/
def idleState (l : Latches) (map : Table) (script : List Byte) : State :=
  { latches := l, map := map, hostMap := map, inFlight := none, bus := busOf script, inbox := [], slot := none,
    rsp := none }

/-- The same with an input. -/
def withInput (l : Latches) (map : Table) (script : List Byte) (inp : Input) : State :=
  { idleState l map script with inbox := [inp] }

/-- Latches written as the spec does: leftCtrl leftShift rightShift leftAlt. -/
def bits (c l r a : Bool) : Latches := ⟨c, l, r, a⟩

/-- What a test looks at in a next state: the latches and the response. -/
def seen : Host.Outcome State Fault Refusal → Option (Latches × Option Response)
  | .next s => some (s.latches, s.rsp)
  | _ => none

/-- The trace of a next state, oldest event first, and its response. -/
def traced : Host.Outcome State Fault Refusal → Option (List Event × Option Response)
  | .next s => some (s.bus.log.reverse, s.rsp)
  | _ => none

/-- Events as the spec writes them: `R(S)`, `R(D)`, `W(C)`, `W(D)`. -/
def rs (v : Byte) : Event := .read .statusCmd v
def rd (v : Byte) : Event := .read .data v
def wc (v : Byte) : Event := .write .statusCmd v
def wd (v : Byte) : Event := .write .data v

/-! ## WellFormed refuses -/

theorem test_wf_refuses_break_of_modifiers :
    modifierCodes.map (fun b => (Instr.scBreak b).wf) = [false, false, false, false] := by decide
theorem test_wf_refuses_key_of_modifiers :
    modifierCodes.map (fun b => (Instr.scKey b).wf) = [false, false, false, false] := by decide
theorem test_wf_refuses_key_zero : (Instr.scKey 0).wf = false := by decide
theorem test_wf_accepts_neighbours : (Instr.scBreak 0).wf && (Instr.scBreak 0x7f).wf && (Instr.scKey 0x01).wf &&
    (Instr.scKey 0x7f).wf && (Instr.scKey 0x1e).wf = true := by decide

/-! ## Decoding words written out from 30_encoding.md R52, R54, R55 -/

theorem test_decode_poll : decode .req [0b11111111, 0b00000001] = .ok (.poll true) := by decide
theorem test_decode_xlate : decode .req [0b00110110, 0b00000011] = .ok (.xlate 0x36) := by decide
theorem test_decode_setmouse : decode .req [0b00000000, 0b00000101] = .ok (.setmouse true) := by decide
theorem test_decode_init : decode .req [0b00000001, 0b00000111] = .ok .init := by decide
theorem test_decode_lctrl : decode .sc [0b10011101] = .ok (.scLctrl true) := by decide
theorem test_decode_lshift : decode .sc [0b10101010] = .ok (.scLshift true) := by decide
theorem test_decode_rshift : decode .sc [0b00110110] = .ok (.scRshift false) := by decide
theorem test_decode_lalt : decode .sc [0b00111000] = .ok (.scLalt false) := by decide
theorem test_decode_break : decode .sc [0b11101110] = .ok (.scBreak 0x6e) := by decide
theorem test_decode_ctrlbyte : decode .sc [0b00000000] = .ok .scCtrlbyte := by decide
theorem test_decode_key : decode .sc [0b01101110] = .ok (.scKey 0x6e) := by decide
theorem test_decode_diskbd : decode .cmd [0b10101101] = .ok .cmdDiskbd := by decide
theorem test_decode_wrout : decode .cmd [0b11010010] = .ok .cmdWrout := by decide
theorem test_decode_enkbd : decode .cmd [0b10101110] = .ok .cmdEnkbd := by decide
theorem test_decode_dismouse : decode .cmd [0b10100111] = .ok .cmdDismouse := by decide
theorem test_decode_enmouse : decode .cmd [0b10101000] = .ok .cmdEnmouse := by decide
theorem test_decode_refuses_wide_request : decode .req [0, 8] = .error .requestTooWide := by decide
theorem test_decode_refuses_other_command : decode .cmd [0xac] = .error .unknownCommand := by decide
theorem test_decode_refuses_length : decode .sc [0x1d, 0] = .error .wrongLength := by decide

/-- The request words of R61's table, and a scancode and a command byte. -/
theorem test_table_words :
    [(11, 0x000), (11, 0x100), (16, 0x236), (16, 0x400), (11, 0x600), (8, 0x9e), (8, 0xd2), (16, 0x800)].map
      (fun p => decodeTableWord p.1 p.2) =
    [some (.poll false), some (.poll true), some (.xlate 0x36), some (.setmouse false), some .init, some (.scBreak 0x1e),
      some .cmdWrout, none] := by decide

/-! ## The opcode table's own masks (30_encoding.md, before R50): first match by priority -/

/-- Match and mask of the SC rows, in the order of their priorities, with the mnemonic. -/
def scRows : List (String × Byte × Byte) :=
  [("SC.LCTRL", 0x1d, 0x7f), ("SC.LSHIFT", 0x2a, 0x7f), ("SC.RSHIFT", 0x36, 0x7f), ("SC.LALT", 0x38, 0x7f),
    ("SC.BREAK", 0x80, 0x80), ("SC.CTRLBYTE", 0x00, 0xff), ("SC.KEY", 0x00, 0x80)]

/-- The row of the table a byte selects. -/
def scRowOf (raw : Byte) : Option String := (scRows.find? fun r => raw &&& r.2.2 == r.2.1).map Prod.fst

/-- The row the decoder gives. -/
def scMnemonic : Instr → String
  | .scLctrl _ => "SC.LCTRL"
  | .scLshift _ => "SC.LSHIFT"
  | .scRshift _ => "SC.RSHIFT"
  | .scLalt _ => "SC.LALT"
  | .scBreak _ => "SC.BREAK"
  | .scCtrlbyte => "SC.CTRLBYTE"
  | .scKey _ => "SC.KEY"
  | _ => ""

set_option maxRecDepth 20000 in
theorem test_decoder_agrees_with_the_table :
    (List.range 256).all (fun n => scRowOf (BitVec.ofNat 8 n) == some (scMnemonic (decodeSc (BitVec.ofNat 8 n)))) = true := by
  decide

/-! ## The micro-operations -/

/-- W10. -/
theorem test_writeRegister_waits_for_ibf :
    writeRegister .cmd 0xad (busOf [0x02, 0xfd]) = (true, ⟨[], 2, [wc 0xad, rs 0xfd, .stall, rs 0x02]⟩) := by rfl
/-- W8. -/
theorem test_writeRegister_data_ignores_obf :
    writeRegister .data 0x00 (busOf [0x01]) = (true, ⟨[], 1, [wd 0x00, rs 0x01]⟩) := by rfl
/-- B1 to B15, the verdicts. -/
theorem test_readByte_verdicts :
    ([[0x00], [0x20], [0x80], [0xa0], [0x01, 0x1e], [0x21, 0x08], [0x81, 0x1e], [0xa1, 0x08], [0x03, 0x1e], [0x5f, 0x2a],
      [0x7f, 0x2a], [0xfe], [0xff, 0x33], [0x01, 0xfa], [0x01, 0x00]] : List (List Byte)).map (fun l => (readByte (busOf l)).1) =
    [none, none, none, none, some (0x1e, false), some (0x08, true), none, none, some (0x1e, false), some (0x2a, false),
      some (0x2a, true), none, none, some (0xfa, false), some (0x00, false)] := by decide
/-- B3: no data read; B7: the byte is consumed. -/
theorem test_readByte_traces :
    (readByte (busOf [0x80])).2.log = [rs 0x80] ∧ (readByte (busOf [0x81, 0x1e])).2.log = [rd 0x1e, rs 0x81] := by decide

/-! ## Single instructions -/

/-- P4. -/
theorem test_poll_drops_parity_byte :
    traced (exec (.poll false) (idleState Latches.zero [] [0x81, 0x55, 0x01, 0x1e])) =
      some ([rs 0x81, rd 0x55, .stall, rs 0x01, rd 0x1e], some (.polled 0x1e false)) := by rfl
/-- P15. -/
theorem test_poll_unget_replays :
    traced (exec (.poll true) (idleState Latches.zero [] [0x03, 0x1e, 0x03, 0x01, 0x01, 0x01, 0x01])) =
      some ([rs 0x03, rd 0x1e, rs 0x03, .stall, rs 0x01, wc 0xad, rs 0x01, wc 0xd2, rs 0x01, wd 0x1e, rs 0x01, wc 0xae],
        some (.polled 0x1e false)) := by rfl
/-- The example of 44_mouse_init.md R140. -/
theorem test_setmouse_enable :
    traced (exec (.setmouse true) (idleState Latches.zero [] [0x02, 0x00])) =
      some ([rs 0x02, .stall, rs 0x00, wc 0xa8], some .ok) := by rfl
/-- PR5, step 8. -/
theorem test_setmouse_disable :
    traced (exec (.setmouse false) (idleState Latches.zero [] [0x00])) = some ([rs 0x00, wc 0xa7], some .ok) := by rfl
/-- The example of R144, with a table offered anew. -/
theorem test_init_binds_and_clears :
    exec .init { idleState (bits false true true false) [] [] with hostMap := [(0x1e, 0x61)] } =
      .next { idleState (bits false false false false) [(0x1e, 0x61)] [] with rsp := some .ok } := by rfl
/-- T10 and S4.3. -/
theorem test_xlate_modifiers :
    seen (exec (.xlate 0x1d) (idleState (bits false true true true) [] [])) = some (bits true true true true, some (.char 0)) ∧
    seen (exec (.xlate 0xaa) (idleState (bits true true true true) [] [])) = some (bits true false true true, some (.char 0)) := by
  decide
/-- T34, T36, T41, T49 and T25: the ends of the two ranges, and a listed byte's low seven bits. -/
theorem test_xlate_keys :
    ([(0x2c, 0x7a), (0x0a, 0x39), (0x41, 0x7b), (0x44, 0xb1), (0x6e, 0x58)] : List (Byte × Byte)).map (fun p =>
      seen (exec (.xlate p.1) (idleState (bits false true false false) [(p.1.toNat, p.2)] []))) =
    ([0x5a, 0x28, 0x7b, 0xb1, 0x58] : List Byte).map (fun c => some (bits false true false false, some (.char c))) := by decide
/-- T2. -/
theorem test_scLctrl_release :
    seen (exec (.scLctrl true) (idleState (bits true false false false) [] [])) = some (bits false false false false, some (.char 0)) := by
  decide
/-- T3. -/
theorem test_scLshift_press :
    seen (exec (.scLshift false) (idleState Latches.zero [] [])) = some (bits false true false false, some (.char 0)) := by decide
/-- T11. -/
theorem test_scRshift_release :
    seen (exec (.scRshift true) (idleState (bits true true true true) [] [])) = some (bits true true false true, some (.char 0)) := by
  decide
/-- T14. -/
theorem test_scLalt_press :
    seen (exec (.scLalt false) (idleState (bits true false true false) [] [])) = some (bits true false true true, some (.char 0)) := by
  decide
/-- T23: the table is not read. -/
theorem test_scBreak_gives_zero :
    seen (exec (.scBreak 0x02) (idleState (bits false true true false) [(0x02, 0x31)] [])) =
      some (bits false true true false, some (.char 0)) := by decide
/-- T24: the table is not read. -/
theorem test_scCtrlbyte_gives_zero :
    seen (exec .scCtrlbyte (idleState (bits false true true false) [(0x00, 0x31)] [])) =
      some (bits false true true false, some (.char 0)) := by decide
/-- T29 and T31. -/
theorem test_scKey_letter :
    seen (exec (.scKey 0x1e) (idleState (bits false false true false) [(0x1e, 0x61)] [])) =
      some (bits false false true false, some (.char 0x41)) ∧
    seen (exec (.scKey 0x1e) (idleState (bits true false false true) [(0x1e, 0x61)] [])) =
      some (bits true false false true, some (.char 0x61)) := by decide
/-- 42_poller.md R98 to R100, 44_mouse_init.md R142, R143: each code, once. -/
theorem test_cmd_rows_write_their_code :
    ([.cmdDiskbd, .cmdWrout, .cmdEnkbd, .cmdDismouse, .cmdEnmouse] : List Instr).map (fun i =>
      traced (exec i (idleState Latches.zero [] [0x00]))) =
    ([0xad, 0xd2, 0xae, 0xa7, 0xa8] : List Byte).map (fun c => some ([rs 0x00, wc c], none)) := by rfl
/-- The response words of 30_encoding.md R56: P3, T58, and a timeout's `st` with every other bit set. -/
theorem test_response_words :
    encodeRsp 0 (.polled 0x08 true) = 0x108 ∧ encodeRsp 0 (.char 0x21) = 0x021 ∧ encodeRsp 0x1ff .timeout = 0x3ff := by decide

/-! ## Single steps -/

/-- A call runs in one step. -/
theorem test_step_call :
    seen (step (withInput Latches.zero [] [] (.call [0x2a, 0x02]))) = some (bits false true false false, some (.char 0)) := by
  decide
/-- 42_poller.md R90, one event: a pass that fails for want of data goes on to its stall. -/
theorem test_step_event :
    step { idleState Latches.zero [] [0x02] with inFlight := some (.pollStatus true 5) } =
      .next { idleState Latches.zero [] [] with inFlight := some (.pollStall true 5), bus := ⟨[], 1, [rs 0x02]⟩ } := by rfl
/-- 42_poller.md R92: the last stall ends in a timeout. -/
theorem test_step_timeout :
    step { idleState Latches.zero [] [] with inFlight := some (.pollStall true 1) } =
      .next { idleState Latches.zero [] [] with bus := ⟨[], 0, [.stall]⟩, rsp := some .timeout } := by rfl
/-- 20_memory.md R38: the host's table is seen at the next INIT only. -/
theorem test_step_table :
    step (withInput Latches.zero [(1, 2)] [] (.table 0x1e 0x61)) =
      .next { idleState Latches.zero [(1, 2)] [] with hostMap := [(1, 2), (0x1e, 0x61)] } := by rfl
/-- From reset, a placed word runs in the very next step. -/
theorem test_fetch_word :
    seen (step (State.reset.withFetchWord 11 0x22a)) = some (bits false true false false, some (.char 0)) := by rfl
/-- A class row runs in the very next step, from the slot. -/
theorem test_fetch_row :
    seen (step (State.reset.withFetchWord 8 0x36)) = some (bits false false true false, some (.char 0)) := by rfl

/-! ## Witnesses of hypotheses: buses that stay busy or empty -/

/-- A bus that answers `v` `n` times, then `rest`. -/
def repBus (n : Nat) (v : Byte) (rest : List Byte) : Bus := busOf (List.replicate n v ++ rest)

theorem repBus_upcoming (n : Nat) (v : Byte) (rest : List Byte) (j : Nat) (h : j < n) :
    (repBus n v rest).upcoming j = v := by
  obtain ⟨m, rfl⟩ : ∃ m, n = j + (m + 1) := ⟨n - j - 1, by omega⟩
  simp [repBus, busOf, Bus.upcoming, List.drop_append, List.drop_replicate, List.replicate_succ]

theorem repBus_upcoming_next (n : Nat) (v w : Byte) (rest : List Byte) : (repBus n v (w :: rest)).upcoming n = w := by
  simp [repBus, busOf, Bus.upcoming]

/-- The hypotheses of a write that comes through: at once, and on the last pass. -/
theorem test_witness_write_first : (repBus 0 0x02 [0x00]).upcoming 0 = 0x00 ∧ ((0x00 : Byte))[1] = false := by decide
theorem test_witness_write_last : (11999 < 12000) ∧ (∀ j < 11999, ((repBus 11999 0x02 [0x00]).upcoming j)[1] = true) ∧
    ((repBus 11999 0x02 [0x00]).upcoming 11999)[1] = false := by
  refine ⟨by omega, fun j h => ?_, ?_⟩
  · rw [repBus_upcoming _ _ _ j h]; rfl
  · rw [repBus_upcoming_next]; rfl
/-- The hypothesis of a write that fails. -/
theorem test_witness_write_never : ∀ j < 12000, ((repBus 12000 0x02 [0x00]).upcoming j)[1] = true := by
  intro j h
  rw [repBus_upcoming _ _ _ j h]; rfl
/-- The same for the states of SETMOUSE and of a command row. -/
theorem test_witness_setmouse : ∃ s : State, ∀ j < 12000, (s.bus.upcoming j)[1] = true :=
  ⟨{ idleState Latches.zero [] [] with bus := repBus 12000 0x02 [0x00] }, test_witness_write_never⟩
theorem test_witness_setmouse_last : ∃ s : State, (∀ j < 11999, (s.bus.upcoming j)[1] = true) ∧
    (s.bus.upcoming 11999)[1] = false :=
  ⟨{ idleState Latches.zero [] [] with bus := repBus 11999 0x02 [0x00] }, test_witness_write_last.2⟩
theorem test_witness_command_row : (Instr.cmdEnmouse, (0xa8 : Byte)) ∈
    [(Instr.cmdDiskbd, (0xad : Byte)), (.cmdWrout, 0xd2), (.cmdEnkbd, 0xae), (.cmdDismouse, 0xa7), (.cmdEnmouse, 0xa8)] := by
  decide

theorem bit0_zero : (0x00 : Byte)[0] = false := by decide

/-- The bus after `j` passes without data: the script lost its first `j` answers. -/
theorem repBus_failedPasses (n : Nat) (rest : List Byte) (j : Nat) (h : j ≤ n) :
    (failedPasses (repBus n 0x00 rest) j).script = List.replicate (n - j) 0x00 ++ rest := by
  induction j with
  | zero => rfl
  | succ j ih =>
    obtain ⟨m, hm⟩ : ∃ m, n - j = m + 1 := ⟨n - j - 1, by omega⟩
    have hs := ih (by omega)
    rw [hm, List.replicate_succ, List.cons_append] at hs
    have ha : (failedPasses (repBus n 0x00 rest) j).answer = 0x00 := by unfold Bus.answer; rw [hs]
    show (stall (readByte (failedPasses (repBus n 0x00 rest) j)).2).script = _
    rw [stall_script]
    unfold readByte
    simp only [decodeStatus_obf, readStatus_fst, ha, bit0_zero, Bool.false_eq_true, if_false, readStatus_script, hs, List.tail_cons]
    rw [show n - (j + 1) = m by omega]

theorem repBus_pass_fails (n : Nat) (rest : List Byte) (j : Nat) (h : j < n) :
    (readByte (failedPasses (repBus n 0x00 rest) j)).1 = none := by
  obtain ⟨m, hm⟩ : ∃ m, n - j = m + 1 := ⟨n - j - 1, by omega⟩
  have hs := repBus_failedPasses n rest j (by omega)
  rw [hm, List.replicate_succ, List.cons_append] at hs
  have ha : (failedPasses (repBus n 0x00 rest) j).answer = 0x00 := by unfold Bus.answer; rw [hs]
  unfold readByte
  simp only [decodeStatus_obf, readStatus_fst, ha, bit0_zero, Bool.false_eq_true, if_false]

/-- The hypotheses of a poll that succeeds on its first pass (P3), of one that succeeds on its last (P7), and of a timeout (P5). -/
theorem test_witness_poll_first : ∃ b, readByte (failedPasses (busOf [0x21, 0x08]) 0) = (some (0x08, true), b) := ⟨_, rfl⟩
theorem test_witness_poll_last : (∀ j < 11999, (readByte (failedPasses (repBus 11999 0x00 [0x01, 0x1c]) j)).1 = none) ∧
    ∃ b, readByte (failedPasses (repBus 11999 0x00 [0x01, 0x1c]) 11999) = (some (0x1c, false), b) := by
  refine ⟨fun j h => repBus_pass_fails _ _ j h, ?_⟩
  have hs := repBus_failedPasses 11999 [0x01, 0x1c] 11999 (le_refl _)
  rw [Nat.sub_self, List.replicate_zero, List.nil_append] at hs
  generalize failedPasses (repBus 11999 0x00 [0x01, 0x1c]) 11999 = b at hs
  obtain ⟨s, r, l⟩ := b
  subst hs
  refine ⟨⟨[], r + 2, rd 0x1c :: rs 0x01 :: l⟩, ?_⟩
  simp [readByte, readData, readStatus, ioRead, Bus.answer, rd, rs]
theorem test_witness_poll_timeout : ∀ j < 12000, (readByte (failedPasses (repBus 12000 0x00 []) j)).1 = none :=
  fun j h => repBus_pass_fails _ _ j h
/-- The hypotheses of a complete replay (P9). -/
theorem test_witness_unget : ∃ b, readByte (busOf [0x01, 0x1e, 0x00, 0x00, 0x00, 0x00]) = (some (0x1e, false), b) ∧
    ∀ j < 4, (b.upcoming j)[1] = false := ⟨_, rfl, by decide⟩
/-- The empty and the full subset of the four writes. -/
theorem test_witness_subsets :
    List.Sublist [] [(Port.statusCmd, (0xad : Byte)), (.statusCmd, 0xd2), (.data, 0x1e), (.statusCmd, 0xae)] ∧
    List.Sublist [(Port.statusCmd, (0xad : Byte)), (.statusCmd, 0xd2), (.data, 0x1e), (.statusCmd, 0xae)]
      [(.statusCmd, 0xad), (.statusCmd, 0xd2), (.data, 0x1e), (.statusCmd, 0xae)] := by decide
/-- The three cases of a read: no data, parity error, success. -/
theorem test_witness_read_cases :
    ((busOf [0xfe]).upcoming 0)[0] = false ∧
    (((busOf [0xff, 0x33]).upcoming 0)[0] = true ∧ ((busOf [0xff, 0x33]).upcoming 0)[7] = true) ∧
    (((busOf [0x7f, 0x2a]).upcoming 0)[0] = true ∧ ((busOf [0x7f, 0x2a]).upcoming 0)[7] = false) := by decide

/-! ## Witnesses of hypotheses: encodings and status bytes -/

/-- Each clause of the request words, at its ends. -/
theorem test_witness_request_words : 8 ≤ (8 : Byte).toNat ∧ 8 ≤ (255 : Byte).toNat ∧ ¬ 8 ≤ (7 : Byte).toNat ∧
    ((3 : Byte) = 2 ∨ (3 : Byte) = 3) ∧ ((7 : Byte) = 6 ∨ (7 : Byte) = 7) := by decide
/-- The ends of the release range and of the key range, and neighbours of the modifiers (S5.2, S5.6, T53, T55). -/
theorem test_witness_scancodes :
    ([0x80, 0x9c, 0xab, 0xff] : List Byte).all (fun r => decide (0x80 ≤ r.toNat ∧ r ∉ [0x9d, 0xaa, 0xb6, 0xb8])) = true ∧
    ([0x01, 0x1c, 0x37, 0x7f] : List Byte).all (fun r => decide (0x01 ≤ r.toNat ∧ r.toNat ≤ 0x7f ∧
      r ∉ [0x1d, 0x2a, 0x36, 0x38])) = true := by decide
theorem test_witness_modifier_bytes : (0x9d : Byte) ∈ [(0x1d : Byte), 0x9d] ∧ (0x2a : Byte) ∈ [(0x2a : Byte), 0xaa] ∧
    (0xb6 : Byte) ∈ [(0x36 : Byte), 0xb6] ∧ (0x38 : Byte) ∈ [(0x38 : Byte), 0xb8] := by decide
theorem test_witness_not_command : (0xac : Byte) ∉ [0xad, 0xd2, 0xae, 0xa7, 0xa8] := by decide
/-- Two different status bytes that agree on the four decoded bits. -/
theorem test_witness_status : (0x5c : Byte) &&& 0xa3 = (0x00 : Byte) &&& 0xa3 ∧ (0x5c : Byte) ≠ 0x00 := by decide
theorem test_witness_xlate_row : decode .sc [0x7f] = .ok (.scKey 0x7f) := by decide

/-! ## Witnesses of hypotheses: the translator -/

theorem test_witness_modifiers : (Instr.xlate 0x9d = .xlate (if true then 0x9d else 0x1d)) ∧
    (Instr.scLalt false = .xlate 0x38 ∨ Instr.scLalt false = .scLalt false) := by decide
theorem test_witness_release : (0x80 ≤ (0xff : Byte).toNat ∧ (0xff : Byte) ∉ [0x9d, 0xaa, 0xb6, 0xb8] ∧
    (Instr.scBreak 0x7f = .xlate 0xff ∨ Instr.scBreak 0x7f = .scBreak ((0xff : Byte).setWidth 7))) := by decide
theorem test_witness_ctrlbyte : (0x00 : Byte) = 0x00 ∧ (Instr.xlate 0x00 = .xlate 0x00 ∨ Instr.xlate 0x00 = .scCtrlbyte) ∧
    (Instr.scCtrlbyte = .xlate 0x00 ∨ Instr.scCtrlbyte = .scCtrlbyte) := by decide
/-- A key with each latch state of interest and an entry that is a digit's bound, a letter's bound, or neither. -/
theorem test_witness_keys :
    let s (c : Byte) := idleState (bits false true false false) [(0x7f, c)] []
    [0x30, 0x39, 0x61, 0x7a, 0x2f, 0x3a, 0x60, 0x7b].map (fun c => (s c).map.read 0x7f) =
      [0x30, 0x39, 0x61, 0x7a, 0x2f, 0x3a, 0x60, 0x7b] ∧ (s 0x30).latches.leftShift = true ∧
    (Instr.scKey 0x7f = .xlate 0x7f ∨ Instr.scKey 0x7f = .scKey ((0x7f : Byte).setWidth 7)) := by decide
theorem test_witness_digits : ((0x30 : Byte), (0x29 : Byte)) ∈ shiftedDigits ∧ ((0x39 : Byte), (0x28 : Byte)) ∈ shiftedDigits ∧
    0x60 < (0x61 : Byte).toNat ∧ (0x7a : Byte).toNat < 0x7b ∧
    (((0x2f : Byte).toNat ≤ 0x2f ∨ 0x3a ≤ (0x2f : Byte).toNat) ∧ ((0x2f : Byte).toNat ≤ 0x60 ∨ 0x7b ≤ (0x2f : Byte).toNat)) ∧
    (((0x7b : Byte).toNat ≤ 0x2f ∨ 0x3a ≤ (0x7b : Byte).toNat) ∧ ((0x7b : Byte).toNat ≤ 0x60 ∨ 0x7b ≤ (0x7b : Byte).toNat)) := by
  decide
theorem test_witness_keys_unshifted : (idleState (bits true false false true) [] []).latches.leftShift = false ∧
    (idleState (bits true false false true) [] []).latches.rightShift = false := by decide
theorem test_witness_controller_byte : (0xaa : Byte) ∈ [0x00, 0xaa, 0xee, 0xfa, 0xfc, 0xfd, 0xfe, 0xff] := by decide
theorem test_witness_other_byte : (0x9e : Byte) ∉ [0x1d, 0x9d, 0x2a, 0xaa, 0x36, 0xb6, 0x38, 0xb8] ∧
    0x80 ≤ (0x9e : Byte).toNat := by decide
theorem test_witness_two_shifts : ∃ t t', exec (.xlate 0x2a) (idleState (bits true false true true) [] []) = .next t ∧
    exec (.xlate 0xb6) t = .next t' := ⟨_, _, rfl, rfl⟩
set_option maxRecDepth 20000 in
/-- Two different tables that agree on every key's entry. -/
theorem test_witness_other_table :
    (List.range 256).all (fun n => n == 0x1d || Table.read [(0x1d, 0x41)] (BitVec.ofNat 8 n) == Table.read [] (BitVec.ofNat 8 n)) = true ∧
    ([(0x1d, 0x41)] : Table) ≠ [] := by decide
theorem test_witness_latch_run : ∃ s : State, s.slot = none ∧ s.inFlight = none ∧ s.latches = ⟨false, false, false, false⟩ ∧
    s.inbox = [0x1d, 0x38].map (fun raw => Input.call (encode (.xlate raw))) :=
  ⟨{ idleState Latches.zero [] [] with inbox := [.call [0x1d, 0x02], .call [0x38, 0x02]] }, rfl, rfl, rfl, by decide⟩
theorem test_witness_same_shift : ∃ s t : State, s.latches.leftShift = t.latches.leftShift ∧
    s.latches.rightShift = t.latches.rightShift ∧ s.map = t.map ∧ s ≠ t :=
  ⟨idleState (bits true true false false) [] [], idleState (bits false true false true) [] [], rfl, rfl, rfl, by decide⟩

/-! ## Witnesses of hypotheses: the whole machine -/

theorem test_witness_table_wf : Table.wf [(0, 1), (255, 255)] = true ∧ Table.wf [(0, 0)] = false ∧ Table.wf [(256, 1)] = false := by
  decide
/-- An instruction's next state, for POLL, SETMOUSE, a command row, XLATE and INIT. -/
theorem test_witness_next : ∀ i : Instr, i ∈ [Instr.poll true, .setmouse true, .cmdWrout, .xlate 0x1e, .init] →
    ∃ t, exec i (idleState Latches.zero [] []) = .next t := by
  intro i hi
  simp only [List.mem_cons, List.not_mem_nil, or_false] at hi
  rcases hi with rfl | rfl | rfl | rfl | rfl <;> exact ⟨_, rfl⟩
theorem test_witness_init : ∃ t, exec .init (idleState (bits true true true true) [] []) = .next t := ⟨_, rfl⟩
theorem test_witness_reset_input : (withInput (bits true true true true) [] [] .reset).inbox = .reset :: [] := rfl
theorem test_witness_table_input : (withInput Latches.zero [] [] (.table 0xff 0x00)).inbox = .table 0xff 0x00 :: [] := rfl
/-- A block with a row placed before it. -/
def withSlot (w : Slot) : State := { idleState Latches.zero [] [] with slot := some w }

/-- A call, a placed row, undecodable bytes, and a word of the table, on an idle block. -/
theorem test_witness_call : (withInput Latches.zero [] [] (.call [0x1e, 0x02])).slot = none ∧
    (withInput Latches.zero [] [] (.call [0x1e, 0x02])).inFlight = none ∧
    (withInput Latches.zero [] [] (.call [0x1e, 0x02])).inbox = .call [0x1e, 0x02] :: [] ∧
    decode .req [0x1e, 0x02] = .ok (.xlate 0x1e) := by decide
theorem test_witness_slot : (withSlot ⟨false, .cmd, [0xae]⟩).slot = some ⟨false, .cmd, [0xae]⟩ ∧
    (withSlot ⟨false, .cmd, [0xae]⟩).inFlight = none ∧ decode .cmd [0xae] = .ok .cmdEnkbd := by decide
theorem test_witness_word : decodeTableWord 16 0x7ff = some .init ∧ decodeTableWord 8 0xae = some .cmdEnkbd := by decide
theorem test_witness_undecodable : (withInput Latches.zero [] [] (.issue [0x00])).slot = none ∧
    (withInput Latches.zero [] [] (.issue [0x00])).inFlight = none ∧
    (withInput Latches.zero [] [] (.issue [0x00])).inbox = .issue [0x00] :: [] ∧
    decode .req [0x00] = .error .wrongLength := by decide
theorem test_witness_undecodable_slot : (withSlot ⟨true, .cmd, [0xac]⟩).slot = some ⟨true, .cmd, [0xac]⟩ ∧
    (withSlot ⟨true, .cmd, [0xac]⟩).inFlight = none ∧ decode .cmd [0xac] = .error .unknownCommand := by decide
/-- A request, and a placed row, while a poll is in flight. -/
theorem test_witness_overlap : ∃ s : State, s.slot = none ∧ s.inFlight = some (.pollStatus true 12000) ∧
    s.inbox = .issue [0, 6] :: [] :=
  ⟨{ withInput Latches.zero [] [] (.issue [0, 6]) with inFlight := some (.pollStatus true 12000) }, rfl, rfl, rfl⟩
theorem test_witness_overlap_slot : ∃ s : State, s.slot = some ⟨false, .sc, [0x1e]⟩ ∧
    s.inFlight = some (.pollStatus true 12000) :=
  ⟨{ withSlot ⟨false, .sc, [0x1e]⟩ with inFlight := some (.pollStatus true 12000) }, rfl, rfl⟩
/-- A host's request that is taken up, and each of the four operations. -/
theorem test_witness_host_operation : (withInput Latches.zero [] [] (.issue [0xff, 0x05])).slot = none ∧
    (withInput Latches.zero [] [] (.issue [0xff, 0x05])).nextInstr = some (.setmouse true) := by decide
theorem test_witness_four_operations : hostOperation (Instr.poll true) ∧ hostOperation (Instr.xlate 0xff) ∧
    hostOperation (Instr.setmouse false) ∧ hostOperation Instr.init :=
  ⟨.inl ⟨_, rfl⟩, .inr (.inl ⟨_, rfl⟩), .inr (.inr (.inl ⟨_, rfl⟩)), .inr (.inr (.inr rfl))⟩
/-- A poll's own command write in flight is the host's; a placed command row, and its write, are not. -/
theorem test_witness_host_only : ∃ s t : State, s.hostOnly = true ∧ step s = .next t ∧ s.inFlight ≠ none :=
  ⟨{ idleState Latches.zero [] [] with inFlight := some (.writeByte (.unget .disable 0x1e false) 3 0x00) }, _, by decide, rfl,
    by decide⟩
theorem test_host_only_refuses : (withSlot ⟨true, .cmd, [0xae]⟩).hostOnly = false ∧
    ({ idleState Latches.zero [] [] with inFlight := some (.writeStatus (.command .enKbd) 3) } : State).hostOnly = false := by
  decide
/-- The host cannot give a class byte or a command byte: one byte is no request. -/
theorem test_host_cannot_issue_rows :
    ([[0x1d], [0x1e], [0xad], [0xd2]] : List (List Byte)).map (fun b => (withInput Latches.zero [] [] (.call b)).nextInstr) =
      [none, none, none, none] := by decide
theorem test_witness_idle : (idleState Latches.zero [] []).slot = none ∧ (idleState Latches.zero [] []).inFlight = none ∧ (idleState Latches.zero [] []).inbox = [] ∧
    (withInput Latches.zero [] [] .idle).inbox = .idle :: [] := by decide
/-- A step that writes a latch. -/
theorem test_witness_latch_step : ∃ t, step (withInput Latches.zero [] [] (.call [0x2a, 0x02])) = .next t ∧
    t.latches ≠ (withInput Latches.zero [] [] (.call [0x2a, 0x02])).latches := ⟨_, rfl, by decide⟩
/-- A step that binds a table, and one that does not. -/
theorem test_witness_step_init : ∃ t, step (withInput Latches.zero [(1, 1)] [] (.issue [0, 6])) = .next t := ⟨_, rfl⟩
/-- The invariant in the middle of an unget, right before its data write; and a step from there. -/
theorem test_witness_invariant : ∃ s t : State, s.inv = true ∧ step s = .next t ∧ s.inFlight ≠ none :=
  ⟨{ idleState Latches.zero [(1, 1)] [] with
      inFlight := some (.writeByte (.unget .payload 0x1e false) 12000 0x00)
      bus := ⟨[], 3, [rs 0x00, rd 0x1e, rs 0x01]⟩ }, _, by decide, rfl, by decide⟩
/-- The invariant refuses a command that is none of the five, and a data write that replays another byte. -/
theorem test_invariant_refuses : handshaked [wc 0x20, rs 0x00] = false ∧ handshaked [wd 0x1f, rs 0x00, rd 0x1e, rs 0x01] = false := by
  decide
/-- Two different states that agree but for ctrl and alt. -/
theorem test_witness_ctrl_alt : ∃ s t : State, s.sameButCtrlAlt t ∧ s ≠ t :=
  ⟨idleState (bits true true false false) [] [], idleState (bits false true false true) [] [], rfl, by decide⟩

end Sys2Proof.Tests
end

section
/-! The port reads of the micro-operations (40_portio.md R70, R71). -/

namespace Sys2Proof.Machine

/-- Settles O10: the reading rules of the two ports, `readStatus_eq` and `readData_eq`, side by side. -/
theorem readStatusAndReadDataReadOnce : Obligations.ReadStatusAndReadDataReadOnce := by
  unfold Obligations.ReadStatusAndReadDataReadOnce
  exact fun b => ⟨readStatus_eq b, readData_eq b⟩

end Sys2Proof.Machine
end

section
/-! The timeout of the poller (42_poller.md R92): what a pass does to the ports, then what `k` failed passes do. -/

namespace Sys2Proof.Machine

theorem exec_poll (u : Bool) (s : State) :
    exec (.poll u) s = .next { s with bus := (poll u s.bus).2, rsp := some (poll u s.bus).1 } := rfl

/-- Whatever `ReadByte` answers, it reads the status once, and it neither writes nor stalls. -/
theorem readByte_readsStatusOnce (b : Bus) :
    ∃ n evs, (readByte b).2 = b.after n evs ∧ writes evs = [] ∧ stalls evs = 0 ∧ statusReads evs = 1 := by
  cases hobf : (b.upcoming 0)[0] with
  | false => exact ⟨_, _, congrArg Prod.snd (readByte_noData b hobf), by simp⟩
  | true =>
    cases hperr : (b.upcoming 0)[7] with
    | false => exact ⟨_, _, congrArg Prod.snd (readByte_ok b hobf hperr), by simp⟩
    | true => exact ⟨_, _, congrArg Prod.snd (readByte_parity b hobf hperr), by simp⟩

/-- Each pass followed by its stall adds one status read, one stall and no write to the trace. -/
theorem failedPasses_trace (b : Bus) (k : Nat) :
    ∃ n evs, failedPasses b k = b.after n evs ∧ writes evs = [] ∧ stalls evs = k ∧ statusReads evs = k := by
  induction k with
  | zero => exact ⟨0, [], b.after_zero.symm, writes_nil, stalls_nil, statusReads_nil⟩
  | succ k ih =>
    obtain ⟨n, evs, hbus, hwrites, hstalls, hreads⟩ := ih
    obtain ⟨n', pass, hpass, hwrites', hstalls', hreads'⟩ := readByte_readsStatusOnce (failedPasses b k)
    refine ⟨n + n', .stall :: pass ++ evs, ?_, ?_, ?_, ?_⟩
    · rw [failedPasses, hpass, stall_eq, hbus]
      simp only [Bus.after_after, Nat.add_zero, List.cons_append, List.nil_append]
    · simp [hwrites, hwrites']
    · simp [hstalls, hstalls']
    · simp [hreads, hreads', Nat.add_comm]

/-- Settles O14: the loop of POLL gives up after its 12000 failed passes, whatever the unget flag, and the trace of those
passes is counted by induction on their number. -/
theorem pollTimesOutWithoutWrites : Obligations.PollTimesOutWithoutWrites := by
  unfold Obligations.PollTimesOutWithoutWrites
  intro u s hfail
  have hpoll : poll u s.bus = (.timeout, failedPasses s.bus 12000) := pollLoop_timeout u s.bus 12000 hfail
  exact ⟨by rw [exec_poll, hpoll], failedPasses_trace s.bus 12000⟩

end Sys2Proof.Machine
end

section
/-! The translator (43_translator.md R110): its character and its latches, for a modifier byte and for any other. -/

namespace Sys2Proof.Machine

theorem exec_xlate (raw : Byte) (s : State) :
    exec (.xlate raw) s = .next { s with
      latches := (xlateByte raw s.map s.latches).2, rsp := some (.char (xlateByte raw s.map s.latches).1) } := rfl

/-! ## The fields of a scancode byte -/

/-- The base codes of the four modifier keys, as bytes. -/
def modifierBases : List Byte := modifierCodes.map (·.setWidth 8)

theorem mem_modifierBases {b : Byte} : b ∈ modifierBases ↔ b = 0x1d ∨ b = 0x2a ∨ b = 0x36 ∨ b = 0x38 := by
  simp [modifierBases, modifierCodes]

theorem baseCode_toNat (raw : Byte) : (baseCode raw).toNat = raw.toNat % 128 := by
  rw [baseCode, BitVec.toNat_and]
  exact Nat.and_two_pow_sub_one_eq_mod raw.toNat 7

theorem scRelease_iff (raw : Byte) : scRelease raw = true ↔ 0x80 ≤ raw.toNat := by
  change raw.msb = true ↔ _
  rw [BitVec.msb_eq_decide, decide_eq_true_iff]

/-- A byte is its base code, with the release bit or without. -/
theorem eq_press_or_release {raw b : Byte} (h : baseCode raw = b) : raw = b ∨ raw = b + 0x80 := by
  have hmod := baseCode_toNat raw
  rw [h] at hmod
  bv_omega

/-- Only the eight modifier bytes have a modifier's base code. -/
theorem baseCode_notMem_modifierBases {raw : Byte}
    (h : raw ∉ [0x1d, 0x9d, 0x2a, 0xaa, 0x36, 0xb6, 0x38, 0xb8]) :
    baseCode raw ∉ modifierBases := by
  intro hmem
  rcases mem_modifierBases.mp hmem with hb | hb | hb | hb <;>
    rcases eq_press_or_release hb with rfl | rfl <;> exact h (by decide)

/-! ## `xlateByte`: a modifier, or another byte -/

section

variable {raw : Byte} {map : Table} {l : Latches}

theorem xlateByte_leftCtrl (h : baseCode raw = 0x1d) :
    xlateByte raw map l = (0, { l with leftCtrl := !scRelease raw }) := by simp [xlateByte, h]

theorem xlateByte_leftShift (h : baseCode raw = 0x2a) :
    xlateByte raw map l = (0, { l with leftShift := !scRelease raw }) := by simp [xlateByte, h]

theorem xlateByte_rightShift (h : baseCode raw = 0x36) :
    xlateByte raw map l = (0, { l with rightShift := !scRelease raw }) := by simp [xlateByte, h]

theorem xlateByte_leftAlt (h : baseCode raw = 0x38) :
    xlateByte raw map l = (0, { l with leftAlt := !scRelease raw }) := by simp [xlateByte, h]

theorem xlateByte_modifier_char (h : baseCode raw ∈ modifierBases) : (xlateByte raw map l).1 = 0 := by
  rcases mem_modifierBases.mp h with h | h | h | h
  · rw [xlateByte_leftCtrl h]
  · rw [xlateByte_leftShift h]
  · rw [xlateByte_rightShift h]
  · rw [xlateByte_leftAlt h]

theorem xlateByte_other (h : baseCode raw ∉ modifierBases) :
    xlateByte raw map l = (if scRelease raw ∨ baseCode raw ∈ controllerBytes then 0
      else keyChar l.shift (map.read (baseCode raw)), l) := by
  simp only [mem_modifierBases, not_or] at h
  obtain ⟨hctrl, hlshift, hrshift, halt⟩ := h
  rw [xlateByte, if_neg hctrl, if_neg hlshift, if_neg hrshift, if_neg halt]
  cases hrelease : scRelease raw with
  | true => simp
  | false => simp [apply_ite (Prod.mk · l)]

end

/-- The latches enter the character as the shift predicate alone (R118). -/
theorem xlateByte_char_congr (raw : Byte) (map : Table) {l l' : Latches} (h : l.shift = l'.shift) :
    (xlateByte raw map l).1 = (xlateByte raw map l').1 := by
  by_cases hmod : baseCode raw ∈ modifierBases
  · rw [xlateByte_modifier_char hmod, xlateByte_modifier_char hmod]
  · rw [xlateByte_other hmod, xlateByte_other hmod, h]

/-! ## The obligations -/

/-- Settles O30: a modifier byte by the equation of its key, any other byte by `xlateByte_other`. -/
theorem otherBytesKeepAllLatches : Obligations.OtherBytesKeepAllLatches := by
  unfold Obligations.OtherBytesKeepAllLatches
  intro raw s
  refine ⟨_, exec_xlate raw s, fun hother => ?_, fun hother hrelease => ?_, ?_⟩
  · exact congrArg Prod.snd (xlateByte_other (baseCode_notMem_modifierBases hother))
  · simp only [xlateByte_other (baseCode_notMem_modifierBases hother), (scRelease_iff raw).mpr hrelease, true_or, if_true]
  · refine ⟨?_, ?_, ?_, ?_, ?_, ?_, ?_, ?_⟩ <;> rintro rfl
    · exact congrArg Prod.snd (xlateByte_leftCtrl rfl)
    · exact congrArg Prod.snd (xlateByte_leftCtrl rfl)
    · exact congrArg Prod.snd (xlateByte_leftShift rfl)
    · exact congrArg Prod.snd (xlateByte_leftShift rfl)
    · exact congrArg Prod.snd (xlateByte_rightShift rfl)
    · exact congrArg Prod.snd (xlateByte_rightShift rfl)
    · exact congrArg Prod.snd (xlateByte_leftAlt rfl)
    · exact congrArg Prod.snd (xlateByte_leftAlt rfl)

/-- Settles O51: equal shift latches give equal shift predicates, and the character depends on nothing else of the latches. -/
theorem xlateResultIgnoresCtrlAndAlt : Obligations.XlateResultIgnoresCtrlAndAlt := by
  unfold Obligations.XlateResultIgnoresCtrlAndAlt
  intro raw s t hleft hright hmap
  have hshift : s.latches.shift = t.latches.shift := by rw [Latches.shift, Latches.shift, hleft, hright]
  have hchar : (xlateByte raw s.map s.latches).1 = (xlateByte raw t.map t.latches).1 := by
    rw [← hmap, xlateByte_char_congr raw s.map hshift]
  exact ⟨_, _, _, exec_xlate raw s, exec_xlate raw t, rfl, by rw [hchar]⟩

end Sys2Proof.Machine
end

section
/-! The timeout (60_exceptions.md R150): who answers it, when, and how the response word reports it. -/

namespace Sys2Proof.Machine

/-- The loop of POLL answers the timeout exactly when every pass it has left fails. -/
theorem pollLoop_timeout_iff (u : Bool) (n : Nat) (b : Bus) :
    (pollLoop u n b).1 = .timeout ↔ ∀ j < n, (readByte (failedPasses b j)).1 = none := by
  constructor
  · intro htimeout
    rcases pollLoop_cases n b with ⟨k, hk, v, m, b', hfail, hgood⟩ | hfail
    · rw [pollLoop_ok u b n k hk hfail v m b' hgood] at htimeout
      cases htimeout
    · exact hfail
  · intro hfail
    rw [pollLoop_timeout u b n hfail]

/-- What an instruction can answer: POLL what its loop gives, a command row nothing, the translator a character, SETMOUSE
and INIT success. -/
theorem exec_rsp_cases {i : Instr} {s t : State} (h : exec i s = .next t) :
    (∃ u, i = .poll u ∧ t = { s with bus := (poll u s.bus).2, rsp := some (poll u s.bus).1 }) ∨
    t.rsp = none ∨ (∃ c, t.rsp = some (.char c)) ∨ t.rsp = some .ok := by
  cases i with
  | poll u => exact .inl ⟨u, rfl, (Host.Outcome.next.inj h).symm⟩
  | cmdDiskbd | cmdWrout | cmdEnkbd | cmdDismouse | cmdEnmouse => cases h; exact .inr (.inl rfl)
  | xlate | scLctrl | scLshift | scRshift | scLalt | scBreak | scCtrlbyte | scKey =>
    cases h; exact .inr (.inr (.inl ⟨_, rfl⟩))
  | setmouse | init => cases h; exact .inr (.inr (.inr rfl))

/-- Only POLL answers the timeout, and POLL writes nothing but the bus and the response. -/
theorem exec_timeout {i : Instr} {s t : State} (h : exec i s = .next t) (htimeout : t.rsp = some .timeout) :
    ∃ u, i = .poll u ∧ (poll u s.bus).1 = .timeout ∧ t = { s with bus := t.bus, rsp := some .timeout } := by
  rcases exec_rsp_cases h with ⟨u, rfl, rfl⟩ | hrsp | ⟨c, hrsp⟩ | hrsp
  · have hpoll : (poll u s.bus).1 = .timeout := Option.some.inj htimeout
    exact ⟨u, rfl, hpoll, by rw [hpoll]⟩
  all_goals
    rw [hrsp] at htimeout
    cases htimeout

/-- The nine bits that a timeout leaves free stay below `st`. -/
theorem encodeRsp_timeout_st (free : BitVec 9) : (encodeRsp free .timeout)[9] = true := by
  have hbit : Nat.testBit free.toNat 9 = false := Nat.testBit_lt_two_pow free.isLt
  have hst : Nat.testBit (512 + free.toNat) 9 = !Nat.testBit free.toNat 9 := Nat.testBit_two_pow_add_eq free.toNat 9
  rw [encodeRsp, ← BitVec.getLsbD_eq_getElem, BitVec.getLsbD_ofNat, hst, hbit]
  rfl

/-- Settles O15: by `exec_timeout` the timeout is POLL's, and by `pollLoop_timeout_iff` POLL answers it when its 12000
passes fail. -/
theorem onlyPollTimesOut : Obligations.OnlyPollTimesOut := by
  unfold Obligations.OnlyPollTimesOut
  refine ⟨fun i s t h => ⟨⟨fun htimeout => ?_, ?_⟩, fun htimeout => ?_⟩, encodeRsp_timeout_st⟩
  · obtain ⟨u, hi, hpoll, -⟩ := exec_timeout h htimeout
    exact ⟨u, hi, (pollLoop_timeout_iff u 12000 s.bus).mp hpoll⟩
  · rintro ⟨u, rfl, hfail⟩
    obtain ⟨hexec, -⟩ := pollTimesOutWithoutWrites u s hfail
    cases hexec.symm.trans h
    rfl
  · obtain ⟨-, -, -, hframe⟩ := exec_timeout h htimeout
    exact hframe

end Sys2Proof.Machine
end

section
/-! The decoder and the encoder (30_encoding.md sections 2, 4, 5), format by format: what each decodes, and that whatever it
decodes is well-formed and of its format. -/

namespace Sys2Proof

/-! ## Scancode bytes (R51, R52) -/

/-- The base code as a byte is the base code as a field. -/
theorem baseCode_eq_setWidth_scBase (raw : Byte) : Machine.baseCode raw = (scBase raw).setWidth 8 := by
  refine BitVec.eq_of_toNat_eq ?_
  rw [Machine.baseCode_toNat, BitVec.toNat_setWidth, scBase, BitVec.toNat_setWidth]
  omega

theorem baseCode_eq_iff (raw : Byte) (base : BitVec 7) :
    Machine.baseCode raw = base.setWidth 8 ↔ scBase raw = base := by
  rw [baseCode_eq_setWidth_scBase]
  constructor
  · intro h
    bv_omega
  · exact congrArg _

theorem mem_modifierCodes {base : BitVec 7} :
    base ∈ modifierCodes ↔ base = 0x1d ∨ base = 0x2a ∨ base = 0x36 ∨ base = 0x38 := by
  simp [modifierCodes]

theorem breakBaseOk_iff (base : BitVec 7) : breakBaseOk base = true ↔ base ∉ modifierCodes := by
  simp [breakBaseOk]

theorem keyBaseOk_iff (base : BitVec 7) : keyBaseOk base = true ↔ base ∉ modifierCodes ∧ base ≠ 0 := by
  simp [keyBaseOk]

theorem decodeSc_other {raw : Byte} (h : scBase raw ∉ modifierCodes) :
    decodeSc raw = if scRelease raw then .scBreak (scBase raw)
      else if scBase raw = 0 then .scCtrlbyte else .scKey (scBase raw) := by
  simp only [mem_modifierCodes, not_or] at h
  obtain ⟨hlctrl, hlshift, hrshift, hlalt⟩ := h
  rw [decodeSc, if_neg hlctrl, if_neg hlshift, if_neg hrshift, if_neg hlalt]

/-- The seven classes of a scancode byte, in the order of their tests. -/
theorem decodeSc_cases (raw : Byte) :
    (scBase raw = 0x1d ∧ decodeSc raw = .scLctrl (scRelease raw)) ∨
    (scBase raw = 0x2a ∧ decodeSc raw = .scLshift (scRelease raw)) ∨
    (scBase raw = 0x36 ∧ decodeSc raw = .scRshift (scRelease raw)) ∨
    (scBase raw = 0x38 ∧ decodeSc raw = .scLalt (scRelease raw)) ∨
    (scBase raw ∉ modifierCodes ∧ scRelease raw = true ∧ decodeSc raw = .scBreak (scBase raw)) ∨
    (scBase raw ∉ modifierCodes ∧ scRelease raw = false ∧ scBase raw = 0 ∧ decodeSc raw = .scCtrlbyte) ∨
    (scBase raw ∉ modifierCodes ∧ scRelease raw = false ∧ scBase raw ≠ 0 ∧ decodeSc raw = .scKey (scBase raw)) := by
  by_cases hmod : scBase raw ∈ modifierCodes
  · rcases mem_modifierCodes.mp hmod with h | h | h | h <;> simp [decodeSc, h]
  · refine .inr (.inr (.inr (.inr ?_)))
    rw [decodeSc_other hmod]
    cases hrelease : scRelease raw with
    | true => exact .inl ⟨hmod, rfl, rfl⟩
    | false =>
      by_cases hzero : scBase raw = 0
      · exact .inr (.inl ⟨hmod, rfl, hzero, if_pos hzero⟩)
      · exact .inr (.inr ⟨hmod, rfl, hzero, if_neg hzero⟩)

/-- A class row's byte decodes by its two fields. -/
theorem decodeSc_scByte_other {r : Bool} {base : BitVec 7} (h : base ∉ modifierCodes) :
    decodeSc (scByte r base) = if r then .scBreak base else if base = 0 then .scCtrlbyte else .scKey base := by
  rw [decodeSc_other (by rwa [Machine.scBase_scByte]), Machine.scBase_scByte, Machine.scRelease_scByte]

theorem decodeSc_wf (raw : Byte) : (decodeSc raw).wf = true ∧ (decodeSc raw).format = .sc := by
  rcases decodeSc_cases raw with ⟨-, h⟩ | ⟨-, h⟩ | ⟨-, h⟩ | ⟨-, h⟩ | ⟨hmod, -, h⟩ | ⟨-, -, -, h⟩ | ⟨hmod, -, hzero, h⟩ <;>
    rw [h]
  · exact ⟨rfl, rfl⟩
  · exact ⟨rfl, rfl⟩
  · exact ⟨rfl, rfl⟩
  · exact ⟨rfl, rfl⟩
  · exact ⟨(breakBaseOk_iff _).mpr hmod, rfl⟩
  · exact ⟨rfl, rfl⟩
  · exact ⟨(keyBaseOk_iff _).mpr ⟨hmod, hzero⟩, rfl⟩

/-! ## The classes by the byte's value -/

/-- Only the eight modifier bytes have a modifier's base code. -/
theorem scBase_notMem_modifierCodes {raw : Byte} (h : raw ∉ [0x1d, 0x9d, 0x2a, 0xaa, 0x36, 0xb6, 0x38, 0xb8]) :
    scBase raw ∉ modifierCodes := by
  intro hmem
  refine Machine.baseCode_notMem_modifierBases h ?_
  rw [baseCode_eq_setWidth_scBase]
  exact List.mem_map_of_mem hmem

theorem notMem_modifierBytes_of_release {raw : Byte} (h : 0x80 ≤ raw.toNat) (hother : raw ∉ [0x9d, 0xaa, 0xb6, 0xb8]) :
    raw ∉ [0x1d, 0x9d, 0x2a, 0xaa, 0x36, 0xb6, 0x38, 0xb8] := by
  simp only [List.mem_cons, List.not_mem_nil, or_false, not_or] at hother ⊢
  bv_omega

theorem notMem_modifierBytes_of_press {raw : Byte} (h : raw.toNat ≤ 0x7f) (hother : raw ∉ [0x1d, 0x2a, 0x36, 0x38]) :
    raw ∉ [0x1d, 0x9d, 0x2a, 0xaa, 0x36, 0xb6, 0x38, 0xb8] := by
  simp only [List.mem_cons, List.not_mem_nil, or_false, not_or] at hother ⊢
  bv_omega

theorem scRelease_of_press {raw : Byte} (h : raw.toNat ≤ 0x7f) : ¬ scRelease raw = true := by
  rw [Machine.scRelease_iff]
  omega

theorem scBase_ne_zero {raw : Byte} (hlo : 0x01 ≤ raw.toNat) (hhi : raw.toNat ≤ 0x7f) : scBase raw ≠ 0 := by
  unfold scBase
  bv_omega

/-! ## Request words (R55) -/

theorem reqWord_toNat (op : BitVec 2) (sel : Bool) (arg : Byte) :
    (reqWord op sel arg).toNat = op.toNat * 512 + sel.toNat * 256 + arg.toNat := by
  have hop := op.isLt
  have hsel := sel.toNat_lt
  have harg := arg.isLt
  rw [reqWord, BitVec.toNat_ofNat]
  omega

theorem reqWord_op (op : BitVec 2) (sel : Bool) (arg : Byte) : (reqWord op sel arg).extractLsb' 9 2 = op := by
  have hop := op.isLt
  have hsel := sel.toNat_lt
  have harg := arg.isLt
  refine BitVec.eq_of_toNat_eq ?_
  rw [BitVec.extractLsb'_toNat, reqWord_toNat, Nat.shiftRight_eq_div_pow]
  omega

theorem reqWord_sel (op : BitVec 2) (sel : Bool) (arg : Byte) : (reqWord op sel arg)[8] = sel := by
  have harg := arg.isLt
  rw [BitVec.getElem_eq_testBit_toNat, reqWord_toNat, Nat.testBit_eq_decide_div_mod_eq]
  cases sel <;> simp <;> omega

theorem reqWord_arg (op : BitVec 2) (sel : Bool) (arg : Byte) : (reqWord op sel arg).extractLsb' 0 8 = arg := by
  have harg := arg.isLt
  refine BitVec.eq_of_toNat_eq ?_
  rw [BitVec.extractLsb'_toNat, reqWord_toNat, Nat.shiftRight_zero]
  omega

/-- A request word's selection by its three fields. -/
theorem decodeReq_reqWord (op : BitVec 2) (sel : Bool) (arg : Byte) :
    decodeReq (reqWord op sel arg) = if op = 0 then .poll sel else if op = 1 then .xlate arg
      else if op = 2 then .setmouse sel else .init := by
  rw [decodeReq, reqWord_op, reqWord_sel, reqWord_arg]

/-- Two bytes whose upper one has bits 7 to 3 clear are a request word; the upper one holds the word's bits 10 to 8. -/
theorem decode_req_word (w : ReqWord) (lo hi : Byte) (hhi : hi.toNat < 8) (hw : w.toNat = hi.toNat * 256 + lo.toNat) :
    decode .req [lo, hi] = .ok (decodeReq w) := by
  rw [decode, if_pos hhi, ← hw, BitVec.ofNat_toNat, BitVec.setWidth_eq]

theorem decode_reqBytes (w : ReqWord) : decode .req (reqBytes w) = .ok (decodeReq w) := by
  have hw := w.isLt
  have hhi : (BitVec.ofNat 8 (w.extractLsb' 8 3).toNat).toNat = w.toNat / 256 := by
    rw [BitVec.toNat_ofNat, BitVec.extractLsb'_toNat, Nat.shiftRight_eq_div_pow]
    omega
  have hlo : (w.extractLsb' 0 8).toNat = w.toNat % 256 := by
    rw [BitVec.extractLsb'_toNat, Nat.shiftRight_zero]
  exact decode_req_word w _ _ (by omega) (by omega)

theorem decodeReq_wf (w : ReqWord) : (decodeReq w).wf = true ∧ (decodeReq w).format = .req := by
  unfold decodeReq
  split
  · exact ⟨rfl, rfl⟩
  · split
    · exact ⟨rfl, rfl⟩
    · split <;> exact ⟨rfl, rfl⟩

/-- The second byte of a request holds the operation in bits 2 and 1 and the operand of POLL and SETMOUSE in bit 0. -/
theorem decode_req_fields (op : BitVec 2) (sel : Bool) (arg hi : Byte) (h : hi.toNat = op.toNat * 2 + sel.toNat) :
    decode .req [arg, hi] = .ok (if op = 0 then .poll sel else if op = 1 then .xlate arg
      else if op = 2 then .setmouse sel else .init) := by
  have hop := op.isLt
  have hsel := sel.toNat_lt
  rw [decode_req_word (reqWord op sel arg) arg hi (by omega) (by rw [reqWord_toNat]; omega), decodeReq_reqWord]

/-! ## Command bytes (R54) -/

theorem Command.instr_wf (c : Command) : c.instr.wf = true ∧ c.instr.format = .cmd := by
  cases c <;> exact ⟨rfl, rfl⟩

theorem decodeCommand_eq_none {code : Byte} (h : code ∉ [0xad, 0xd2, 0xae, 0xa7, 0xa8]) : decodeCommand code = none := by
  simp only [List.mem_cons, List.not_mem_nil, or_false, not_or] at h
  obtain ⟨hdiskbd, hwrout, henkbd, hdismouse, henmouse⟩ := h
  rw [decodeCommand, if_neg hdiskbd, if_neg hwrout, if_neg henkbd, if_neg hdismouse, if_neg henmouse]

/-! ## Any bytes -/

/-- What bytes that decode can be, format by format. -/
theorem decode_ok_cases {f : Format} {bs : List Byte} {i : Instr} (h : decode f bs = .ok i) :
    (f = .req ∧ ∃ w, i = decodeReq w) ∨ (f = .sc ∧ ∃ raw, i = decodeSc raw) ∨ (f = .cmd ∧ ∃ c : Command, i = c.instr) := by
  rw [decode.eq_def] at h
  split at h
  · split at h
    · exact .inl ⟨rfl, _, (Except.ok.inj h).symm⟩
    · cases h
  · exact .inr (.inl ⟨rfl, _, (Except.ok.inj h).symm⟩)
  · split at h
    · exact .inr (.inr ⟨rfl, _, (Except.ok.inj h).symm⟩)
    · cases h
  · cases h

/-! ## The obligations -/

/-- Settles O1: one case per row; a request word by its fields, a scancode byte by its release bit and base code. -/
theorem decodeEncodeRoundTrip : Obligations.DecodeEncodeRoundTrip := by
  unfold Obligations.DecodeEncodeRoundTrip
  intro i hwf
  cases i with
  | poll | xlate | setmouse | init => exact (decode_reqBytes _).trans (congrArg Except.ok (decodeReq_reqWord _ _ _))
  | scLctrl r | scLshift r | scRshift r | scLalt r =>
    simp [encode, decode, Instr.format, decodeSc, Machine.scBase_scByte, Machine.scRelease_scByte]
  | scBreak base => exact congrArg Except.ok (decodeSc_scByte_other ((breakBaseOk_iff base).mp hwf))
  | scCtrlbyte => rfl
  | scKey base =>
    obtain ⟨hmod, hzero⟩ := (keyBaseOk_iff base).mp hwf
    exact congrArg Except.ok ((decodeSc_scByte_other hmod).trans (if_neg hzero))
  | cmdDiskbd | cmdWrout | cmdEnkbd | cmdDismouse | cmdEnmouse => rfl

/-- Settles O2: whatever the format's decoder selects is a row of the format, with fields its encoding admits. -/
theorem decodedInstructionsAreWellFormed : Obligations.DecodedInstructionsAreWellFormed := by
  unfold Obligations.DecodedInstructionsAreWellFormed
  intro f bs i h
  rcases decode_ok_cases h with ⟨rfl, w, rfl⟩ | ⟨rfl, raw, rfl⟩ | ⟨rfl, c, rfl⟩
  · exact decodeReq_wf w
  · exact decodeSc_wf raw
  · exact c.instr_wf

/-- Settles O3: the upper byte gives the operation and its operand bit, and each of its eight values selects by `decodeReq_reqWord`. -/
theorem requestWordsSelectOperations : Obligations.RequestWordsSelectOperations := by
  unfold Obligations.RequestWordsSelectOperations
  intro arg hi
  refine ⟨?_, ?_, ?_, ?_, ?_, ?_, fun hwide => ?_⟩
  · rintro rfl
    exact decode_req_fields 0 false arg _ rfl
  · rintro rfl
    exact decode_req_fields 0 true arg _ rfl
  · rintro (rfl | rfl)
    · exact decode_req_fields 1 false arg _ rfl
    · exact decode_req_fields 1 true arg _ rfl
  · rintro rfl
    exact decode_req_fields 2 false arg _ rfl
  · rintro rfl
    exact decode_req_fields 2 true arg _ rfl
  · rintro (rfl | rfl)
    · exact decode_req_fields 3 false arg _ rfl
    · exact decode_req_fields 3 true arg _ rfl
  · rw [decode, if_neg (by omega)]

/-- Settles O4: a modifier byte by its value, any other byte by `decodeSc_other`. -/
theorem scancodeClassesByValue : Obligations.ScancodeClassesByValue := by
  unfold Obligations.ScancodeClassesByValue
  intro raw
  refine ⟨?_, ?_, ?_, ?_, fun hrelease hother => ?_, ?_, fun hlo hhi hother => ?_⟩
  case refine_5 =>
    have hmod := scBase_notMem_modifierCodes (notMem_modifierBytes_of_release hrelease hother)
    exact congrArg Except.ok ((decodeSc_other hmod).trans (if_pos ((Machine.scRelease_iff raw).mpr hrelease)))
  case refine_7 =>
    have hmod := scBase_notMem_modifierCodes (notMem_modifierBytes_of_press hhi hother)
    exact congrArg Except.ok ((decodeSc_other hmod).trans
      ((if_neg (scRelease_of_press hhi)).trans (if_neg (scBase_ne_zero hlo hhi))))
  case refine_6 =>
    rintro rfl
    rfl
  all_goals
    simp only [List.mem_cons, List.not_mem_nil, or_false]
    rintro (rfl | rfl) <;> rfl

/-- Settles O5: the five codes by evaluation, any other byte by `decodeCommand_eq_none`. -/
theorem commandBytesDecode : Obligations.CommandBytesDecode := by
  unfold Obligations.CommandBytesDecode
  intro code
  refine ⟨?_, ?_, ?_, ?_, ?_, fun hother => ?_⟩
  case refine_6 => simp [decode, decodeCommand_eq_none hother]
  all_goals
    rintro rfl
    rfl

/-- Settles O6: each of the sixteen words is closed, and the decoder evaluates on it. -/
theorem specWordsDecode : Obligations.SpecWordsDecode := by
  unfold Obligations.SpecWordsDecode
  refine ⟨?_, ?_, ?_, ?_, ?_, ?_, ?_, ?_, ?_, ?_, ?_, ?_, ?_, ?_, ?_, ?_⟩ <;> rfl

end Sys2Proof
end

section
/-! Issuing (10_state.md R14): where each operation with port events begins. -/

namespace Sys2Proof.Machine

/-- Where an operation with port events stands once it is issued; none for one that is done at once. -/
def opening : Instr → Option InFlight
  | .poll u => some (.pollStatus u Config.budget)
  | .setmouse e => some (.writeStatus (.setmouse e) Config.budget)
  | .cmdDiskbd => some (.writeStatus (.command .disKbd) Config.budget)
  | .cmdWrout => some (.writeStatus (.command .wrOut) Config.budget)
  | .cmdEnkbd => some (.writeStatus (.command .enKbd) Config.budget)
  | .cmdDismouse => some (.writeStatus (.command .disMouse) Config.budget)
  | .cmdEnmouse => some (.writeStatus (.command .enMouse) Config.budget)
  | _ => none

theorem start_of_opening {i : Instr} {p : InFlight} {s : State} (h : opening i = some p) :
    start i s = .next { s with inFlight := some p } := by
  cases i <;> cases h <;> rfl

theorem start_of_no_opening {i : Instr} {s : State} (h : opening i = none) : start i s = exec i s := by
  cases i with
  | poll | setmouse | cmdDiskbd | cmdWrout | cmdEnkbd | cmdDismouse | cmdEnmouse => cases h
  | xlate | init | scLctrl | scLshift | scRshift | scLalt | scBreak | scCtrlbyte | scKey => rfl

end Sys2Proof.Machine
end

section
/-! The ctrl and alt latches (10_state.md R12, R25): every operation commutes with other values in them, up to what it writes
there itself. -/

namespace Sys2Proof.Machine

theorem sameButCtrlAlt_withCtrlAlt (s : State) (ctrl alt : Bool) : s.sameButCtrlAlt (s.withCtrlAlt ctrl alt) := rfl

/-! ## Instructions -/

/-- A byte translated under other ctrl and alt latches gives the same character and, but for these two, the same latches. -/
theorem xlateByte_withCtrlAlt (raw : Byte) (map : Table) (l : Latches) (ctrl alt : Bool) : ∃ ctrl' alt',
    xlateByte raw map { l with leftCtrl := ctrl, leftAlt := alt } =
      ((xlateByte raw map l).1, { (xlateByte raw map l).2 with leftCtrl := ctrl', leftAlt := alt' }) := by
  by_cases hmod : baseCode raw ∈ modifierBases
  · rcases mem_modifierBases.mp hmod with h | h | h | h
    · exact ⟨!scRelease raw, alt, by rw [xlateByte_leftCtrl h, xlateByte_leftCtrl h]⟩
    · exact ⟨ctrl, alt, by rw [xlateByte_leftShift h, xlateByte_leftShift h]⟩
    · exact ⟨ctrl, alt, by rw [xlateByte_rightShift h, xlateByte_rightShift h]⟩
    · exact ⟨ctrl, !scRelease raw, by rw [xlateByte_leftAlt h, xlateByte_leftAlt h]⟩
  · exact ⟨ctrl, alt, by rw [xlateByte_other hmod, xlateByte_other hmod]; rfl⟩

theorem exec_withCtrlAlt (i : Instr) (s : State) (ctrl alt : Bool) :
    sameOutcome (exec i s) (exec i (s.withCtrlAlt ctrl alt)) := by
  cases i with
  | xlate raw =>
    obtain ⟨ctrl', alt', h⟩ := xlateByte_withCtrlAlt raw s.map s.latches ctrl alt
    rw [exec_xlate, exec_xlate, State.withCtrlAlt_map, State.withCtrlAlt_latches, h]
    rfl
  | _ => exact rfl

theorem start_withCtrlAlt (i : Instr) (s : State) (ctrl alt : Bool) :
    sameOutcome (start i s) (start i (s.withCtrlAlt ctrl alt)) := by
  cases h : opening i with
  | some p =>
    rw [start_of_opening h, start_of_opening h]
    rfl
  | none =>
    rw [start_of_no_opening h, start_of_no_opening h]
    exact exec_withCtrlAlt i s ctrl alt

/-! ## Events -/

theorem afterWrite_withCtrlAlt (k : Caller) (s : State) (ctrl alt : Bool) :
    afterWrite k (s.withCtrlAlt ctrl alt) = (afterWrite k s).withCtrlAlt ctrl alt := by
  cases k with
  | unget st b m => cases st <;> rfl
  | setmouse | command => rfl

theorem afterRead_withCtrlAlt (u : Bool) (b : Byte) (m : Bool) (s : State) (ctrl alt : Bool) :
    afterRead u b m (s.withCtrlAlt ctrl alt) = (afterRead u b m s).withCtrlAlt ctrl alt := by
  cases u <;> rfl

theorem tick_withCtrlAlt (p : InFlight) (s : State) (ctrl alt : Bool) :
    tick p (s.withCtrlAlt ctrl alt) = (tick p s).withCtrlAlt ctrl alt := by
  cases p with
  | pollStatus | writeStatus => rfl
  | pollData u n snap =>
    rw [tick, tick]
    split
    · rfl
    · exact afterRead_withCtrlAlt _ _ _ { s with bus := (readData s.bus).2 } ctrl alt
  | pollStall u n =>
    rw [tick, tick]
    split <;> rfl
  | writeByte k n snap => exact afterWrite_withCtrlAlt k { s with bus := ioWrite k.target.1.port k.target.2 s.bus } ctrl alt
  | writeStall k n =>
    rw [tick, tick]
    split
    · exact afterWrite_withCtrlAlt k { s with bus := stall s.bus } ctrl alt
    · rfl

theorem advance_withCtrlAlt (s : State) (ctrl alt : Bool) :
    advance (s.withCtrlAlt ctrl alt) = (advance s).withCtrlAlt ctrl alt := by
  cases h : s.inFlight with
  | none => rw [advance_idle s h, advance_idle (s.withCtrlAlt ctrl alt) h]
  | some p => rw [advance_busy s p h, advance_busy (s.withCtrlAlt ctrl alt) p h, tick_withCtrlAlt]

/-! ## Steps -/

/-- A request is refused, or not, whatever the ctrl and alt latches hold; what it runs decides the rest. -/
theorem accept_withCtrlAlt {run : Instr → State → Host.Outcome State Fault Refusal} {ctrl alt : Bool}
    (hrun : ∀ i s, sameOutcome (run i s) (run i (s.withCtrlAlt ctrl alt))) (f : Format) (bytes : List Byte) (s : State) :
    sameOutcome (accept run f bytes s) (accept run f bytes (s.withCtrlAlt ctrl alt)) := by
  cases hfl : s.inFlight with
  | some p =>
    rw [accept_busy run f bytes s p hfl, accept_busy run f bytes (s.withCtrlAlt ctrl alt) p hfl]
    rfl
  | none =>
    cases hd : decode f bytes with
    | ok i =>
      rw [accept_ok run f bytes s i hfl hd, accept_ok run f bytes (s.withCtrlAlt ctrl alt) i hfl hd]
      exact hrun i s
    | error e =>
      rw [accept_error run f bytes s e hfl hd, accept_error run f bytes (s.withCtrlAlt ctrl alt) e hfl hd]
      rfl

theorem stepInput_withCtrlAlt (s : State) (ctrl alt : Bool) :
    sameOutcome (stepInput s) (stepInput (s.withCtrlAlt ctrl alt)) := by
  rw [stepInput, stepInput, State.withCtrlAlt_inbox]
  have hadvance : (advance s.consume).sameButCtrlAlt (advance (s.withCtrlAlt ctrl alt).consume) := by
    rw [show (s.withCtrlAlt ctrl alt).consume = s.consume.withCtrlAlt ctrl alt from rfl, advance_withCtrlAlt]
    exact sameButCtrlAlt_withCtrlAlt _ ctrl alt
  split
  · exact accept_withCtrlAlt (exec_withCtrlAlt · · ctrl alt) _ _ s.consume
  · exact accept_withCtrlAlt (start_withCtrlAlt · · ctrl alt) _ _ s.consume
  · rfl
  · rfl
  · exact hadvance
  · exact hadvance

theorem stepSlot_withCtrlAlt (w : Slot) (s : State) (ctrl alt : Bool) :
    sameOutcome (stepSlot w s) (stepSlot w (s.withCtrlAlt ctrl alt)) := by
  rw [stepSlot, stepSlot]
  split
  · exact accept_withCtrlAlt (start_withCtrlAlt · · ctrl alt) _ _ s.takeSlot
  · exact accept_withCtrlAlt (exec_withCtrlAlt · · ctrl alt) _ _ s.takeSlot

theorem step_withCtrlAlt (s : State) (ctrl alt : Bool) : sameOutcome (step s) (step (s.withCtrlAlt ctrl alt)) := by
  cases h : s.slot with
  | some w =>
    rw [step_of_slot s w h, step_of_slot (s.withCtrlAlt ctrl alt) w h]
    exact stepSlot_withCtrlAlt w s ctrl alt
  | none =>
    rw [step_of_no_slot s h, step_of_no_slot (s.withCtrlAlt ctrl alt) h]
    exact stepInput_withCtrlAlt s ctrl alt

/-- Settles O50: the related state is the state itself with other values in the two latches, and a step commutes with that. -/
theorem ctrlAndAltAreUnobservable : Obligations.CtrlAndAltAreUnobservable := by
  unfold Obligations.CtrlAndAltAreUnobservable
  intro s t hsame
  rw [show t = s.withCtrlAlt t.latches.leftCtrl t.latches.leftAlt from hsame]
  exact step_withCtrlAlt s _ _

end Sys2Proof.Machine
end

section
/-! An operation event by event (10_state.md R14): the events of each loop lead to where the loop ends, within a bound. -/

namespace Sys2Proof.Machine

/-! ## Runs of events -/

/-- `Ticks n s t`: the operation in flight in `s` does `n` events and leaves `t`. -/
inductive Ticks : Nat → State → State → Prop
  | refl (s : State) : Ticks 0 s s
  | tick {n : Nat} {s t : State} {p : InFlight} (hp : s.inFlight = some p) (h : Ticks n (tick p s) t) : Ticks (n + 1) s t

theorem Ticks.trans {j k : Nat} {s t u : State} (hst : Ticks j s t) (htu : Ticks k t u) : Ticks (j + k) s u := by
  induction hst with
  | refl s => rwa [Nat.zero_add]
  | tick hp _ ih => rw [Nat.succ_add]; exact .tick hp (ih htu)

/-- `Reaches k s t`: the operation in flight in `s` leaves `t` after at most `k` events. -/
def Reaches (k : Nat) (s t : State) : Prop := ∃ n ≤ k, Ticks n s t

theorem Reaches.refl (s : State) : Reaches 0 s s := ⟨0, le_refl 0, .refl s⟩

theorem Reaches.mono {j k : Nat} {s t : State} (h : Reaches j s t) (hjk : j ≤ k) : Reaches k s t := by
  obtain ⟨n, hn, ht⟩ := h
  exact ⟨n, hn.trans hjk, ht⟩

theorem Reaches.trans {j k : Nat} {s t u : State} (hst : Reaches j s t) (htu : Reaches k t u) : Reaches (j + k) s u := by
  obtain ⟨n, hn, ht⟩ := hst
  obtain ⟨m, hm, hu⟩ := htu
  exact ⟨n + m, Nat.add_le_add hn hm, ht.trans hu⟩

/-- One event, then the rest. -/
theorem Reaches.tick {k : Nat} {s t : State} {p : InFlight} (hp : s.inFlight = some p) (h : Reaches k (Machine.tick p s) t) :
    Reaches (k + 1) s t := by
  obtain ⟨n, hn, ht⟩ := h
  exact ⟨n + 1, Nat.succ_le_succ hn, .tick hp ht⟩

/-- What every event keeps, a run of events keeps. -/
theorem Reaches.keeps {P : State → Prop} (hP : ∀ p s, s.inFlight = some p → P s → P (Machine.tick p s)) {k : Nat} {s t : State}
    (h : Reaches k s t) (hs : P s) : P t := by
  obtain ⟨n, -, hn⟩ := h
  induction hn with
  | refl s => exact hs
  | tick hp _ ih => exact ih (hP _ _ hp hs)

/-! ## `WriteRegister` -/

theorem afterWrite_inFlight_irrel (k : Caller) (s : State) (p : Option InFlight) :
    afterWrite k { s with inFlight := p } = afterWrite k s := by
  cases k with
  | unget st b m => cases st <;> rfl
  | setmouse | command => rfl

/-- A pass that finds IBF clear: the read and the write. -/
theorem writePass_clear (k : Caller) (n : Nat) (s : State) (h : (decodeStatus (readStatus s.bus).1).ibf = false) :
    Reaches 2 { s with inFlight := some (.writeStatus k n) }
      (afterWrite k { s with bus := ioWrite k.target.1.port k.target.2 (readStatus s.bus).2 }) := by
  refine .tick rfl ?_
  simp only [tick, h, Bool.false_eq_true, reduceIte]
  refine .tick rfl ?_
  rw [tick, ← afterWrite_inFlight_irrel k { s with bus := _ }]
  exact .refl _

/-- A pass that finds IBF set, and is the last: the read and the stall. -/
theorem writePass_last (k : Caller) (s : State) (h : (decodeStatus (readStatus s.bus).1).ibf = true) :
    Reaches 2 { s with inFlight := some (.writeStatus k 1) } (afterWrite k { s with bus := stall (readStatus s.bus).2 }) := by
  refine .tick rfl ?_
  simp only [tick, h, reduceIte]
  refine .tick rfl ?_
  rw [tick, ← afterWrite_inFlight_irrel k { s with bus := _ }]
  exact .refl _

/-- A pass that finds IBF set, and is not the last. -/
theorem writePass_busy (k : Caller) (n : Nat) (s : State) (h : (decodeStatus (readStatus s.bus).1).ibf = true) :
    Reaches 2 { s with inFlight := some (.writeStatus k (n + 2)) }
      { s with bus := stall (readStatus s.bus).2, inFlight := some (.writeStatus k (n + 1)) } := by
  refine .tick rfl ?_
  simp only [tick, h, reduceIte]
  refine .tick rfl ?_
  exact .refl _

/-- A `WriteRegister` with `n + 1` passes left takes at most two events for each, and then its caller goes on. -/
theorem writeLoop_reaches (k : Caller) (n : Nat) (s : State) :
    Reaches (2 * (n + 1)) { s with inFlight := some (.writeStatus k (n + 1)) }
      (afterWrite k { s with bus := (writeLoop k.target.1 k.target.2 (n + 1) s.bus).2 }) := by
  induction n generalizing s with
  | zero =>
    rw [writeLoop]
    split
    · exact writePass_last k s ‹_›
    · exact writePass_clear k 1 s (Bool.eq_false_iff.mpr ‹_›)
  | succ n ih =>
    rw [writeLoop]
    split
    · exact ((writePass_busy k n s ‹_›).trans (ih { s with bus := stall (readStatus s.bus).2 })).mono (by omega)
    · exact (writePass_clear k (n + 2) s (Bool.eq_false_iff.mpr ‹_›)).mono (by omega)

theorem writeRegister_reaches (k : Caller) (s : State) :
    Reaches 24000 { s with inFlight := some (.writeStatus k Config.budget) }
      (afterWrite k { s with bus := (writeRegister k.target.1 k.target.2 s.bus).2 }) :=
  writeLoop_reaches k 11999 s

/-! ## POLL -/

/-- The four writes of the unget sequence follow one another, and then POLL ends with the byte it read. -/
theorem unget_reaches (b : Byte) (m : Bool) (s : State) :
    Reaches 96000 { s with inFlight := some (.writeStatus (.unget .disable b m) Config.budget) }
      ({ s with bus := unget b s.bus }.finish (some (.polled b m))) :=
  (writeRegister_reaches (.unget .disable b m) s).trans <|
    (writeRegister_reaches (.unget .writeOut b m) { s with bus := _ }).trans <|
      (writeRegister_reaches (.unget .payload b m) { s with bus := _ }).trans <|
        writeRegister_reaches (.unget .enable b m) { s with bus := _ }

theorem afterRead_reaches (u : Bool) (b : Byte) (m : Bool) (s : State) :
    Reaches 96000 (afterRead u b m s)
      ({ s with bus := if u then unget b s.bus else s.bus }.finish (some (.polled b m))) := by
  cases u with
  | false => exact (Reaches.refl _).mono (Nat.zero_le _)
  | true => exact unget_reaches b m s

/-- `ReadByte` event by event: it fails, and the stall comes next, or POLL goes on with its byte. -/
theorem readByte_reaches (u : Bool) (n : Nat) (s : State) :
    Reaches 2 { s with inFlight := some (.pollStatus u n) } (match readByte s.bus with
      | (some (v, m), b) => afterRead u v m { s with bus := b }
      | (none, b) => { s with bus := b, inFlight := some (.pollStall u n) }) := by
  refine .tick rfl ?_
  rw [readByte]
  cases hobf : (decodeStatus (readStatus s.bus).1).obf with
  | false =>
    simp only [tick, hobf, Bool.false_eq_true, reduceIte]
    exact (Reaches.refl _).mono (Nat.zero_le _)
  | true =>
    simp only [tick, hobf, reduceIte]
    refine .tick rfl ?_
    rw [tick]
    cases hperr : (decodeStatus (readStatus s.bus).1).perr with
    | true => exact .refl _
    | false => cases u <;> exact .refl _

/-- A POLL with `n + 1` passes left takes at most three events for each, the unget sequence apart. -/
theorem pollLoop_reaches (u : Bool) (n : Nat) (s : State) :
    Reaches (3 * (n + 1) + 96000) { s with inFlight := some (.pollStatus u (n + 1)) }
      ({ s with bus := (pollLoop u (n + 1) s.bus).2 }.finish (some (pollLoop u (n + 1) s.bus).1)) := by
  induction n generalizing s with
  | zero =>
    have hread := readByte_reaches u 1 s
    rw [pollLoop]
    rcases hr : readByte s.bus with ⟨_ | ⟨v, m⟩, b⟩ <;> rw [hr] at hread
    · exact (hread.trans (.tick rfl (.refl _))).mono (by omega)
    · exact (hread.trans (afterRead_reaches u v m { s with bus := b })).mono (by omega)
  | succ n ih =>
    have hread := readByte_reaches u (n + 2) s
    rw [pollLoop]
    rcases hr : readByte s.bus with ⟨_ | ⟨v, m⟩, b⟩ <;> rw [hr] at hread
    · exact (hread.trans (.tick rfl (ih { s with bus := stall b }))).mono (by omega)
    · exact (hread.trans (afterRead_reaches u v m { s with bus := b })).mono (by omega)

/-! ## Operations -/

theorem finish_idle {s : State} (h : s.inFlight = none) (b : Bus) (r : Option Response) :
    { s with bus := b }.finish r = { s with bus := b, rsp := r } := by
  rw [State.finish, h]

/-- The command row that a `WriteRegister` stands for ends as the row run whole. -/
theorem sendCommand_reaches {s : State} (h : s.inFlight = none) (c : Command) :
    Reaches 132000 { s with inFlight := some (.writeStatus (.command c) Config.budget) } (s.sendCommand c) := by
  have hwrite := writeRegister_reaches (.command c) s
  rw [afterWrite, finish_idle h] at hwrite
  exact hwrite.mono (by omega)

/-- An operation with port events, issued on an idle block, ends in the state that running it whole gives. -/
theorem exec_reaches {i : Instr} {p : InFlight} {s : State} (hi : opening i = some p) (h : s.inFlight = none) :
    ∃ t, exec i s = .next t ∧ Reaches 132000 { s with inFlight := some p } t := by
  cases i with
  | poll u =>
    cases hi
    have hpoll := pollLoop_reaches u 11999 s
    rw [finish_idle h] at hpoll
    exact ⟨_, rfl, hpoll⟩
  | setmouse e =>
    cases hi
    have hwrite := writeRegister_reaches (.setmouse e) s
    rw [afterWrite, finish_idle h] at hwrite
    exact ⟨_, rfl, hwrite.mono (by omega)⟩
  | cmdDiskbd | cmdWrout | cmdEnkbd | cmdDismouse | cmdEnmouse =>
    cases hi
    exact ⟨_, rfl, sendCommand_reaches h _⟩
  | xlate | init | scLctrl | scLshift | scRshift | scLalt | scBreak | scCtrlbyte | scKey => cases hi

/-! ## Runs of the machine -/

theorem afterWrite_rsp (k : Caller) (s : State) : (afterWrite k s).inFlight = none ∨ (afterWrite k s).rsp = s.rsp := by
  cases k with
  | setmouse | command => exact .inl rfl
  | unget st b m =>
    cases st with
    | disable | writeOut | payload => exact .inr rfl
    | enable => exact .inl rfl

/-- The response is given with the last event: while the operation goes on the field keeps its value. -/
theorem tick_rsp (p : InFlight) (s : State) : (tick p s).inFlight = none ∨ (tick p s).rsp = s.rsp := by
  cases p with
  | pollStatus | writeStatus => exact .inr rfl
  | pollData u n snap =>
    rw [tick]
    split
    · exact .inr rfl
    · cases u
      · exact .inl rfl
      · exact .inr rfl
  | pollStall u n =>
    rw [tick]
    split
    · exact .inl rfl
    · exact .inr rfl
  | writeByte k n snap => exact afterWrite_rsp k { s with bus := _ }
  | writeStall k n =>
    rw [tick]
    split
    · exact afterWrite_rsp k { s with bus := _ }
    · exact .inr rfl

/-- With nothing else to take up, a step is an event of the operation in flight. -/
theorem step_quiet {s : State} {p : InFlight} (hslot : s.slot = none) (hinbox : s.inbox = []) (hp : s.inFlight = some p)
    (hrsp : s.rsp = none) : step s = .next (tick p s) := by
  have hconsume : s.consume = s := by rw [State.consume, hinbox, ← hrsp, List.tail_nil, ← hinbox]
  rw [step_of_no_slot s hslot, stepInput, hinbox]
  simp only [hconsume, advance_busy s p hp]

/-- A run of events is a run of the machine, as long as nothing else is to be taken up. -/
theorem Ticks.run {n : Nat} {s t : State} (h : Ticks n s t) (hslot : s.slot = none) (hinbox : s.inbox = [])
    (hrsp : s.inFlight = none ∨ s.rsp = none) : Host.Core.run core n s = .next t := by
  induction h with
  | refl s => rfl
  | @tick n s t p hp _ ih =>
    have hrsp' : s.rsp = none := hrsp.resolve_left (by simp [hp])
    rw [core_run_next n s _ (step_quiet hslot hinbox hp hrsp')]
    have hsame := tick_same p s
    exact ih (hsame.slot.trans hslot) (hsame.inbox.trans hinbox) ((tick_rsp p s).imp id (Eq.trans · hrsp'))

/-- Taken up on a block that has nothing else to do, the same bytes end alike whether run whole or event by event. -/
theorem accept_start_ends (f : Format) (bytes : List Byte) (s issued called : State) (hslot : s.slot = none)
    (hinbox : s.inbox = []) (hrsp : s.rsp = none) (hissued : step issued = accept start f bytes s)
    (hcalled : step called = accept exec f bytes s) :
    ∃ n ≤ 132000, Host.Core.run core (n + 1) issued = Host.Core.run core 1 called := by
  rw [core_run_one called, hcalled]
  have atOnce : accept start f bytes s = accept exec f bytes s →
      ∃ n ≤ 132000, Host.Core.run core (n + 1) issued = accept exec f bytes s := fun h =>
    ⟨0, Nat.zero_le _, (core_run_one issued).trans (hissued.trans h)⟩
  cases hfl : s.inFlight with
  | some p => exact atOnce ((accept_busy start f bytes s p hfl).trans (accept_busy exec f bytes s p hfl).symm)
  | none =>
    cases hd : decode f bytes with
    | error e => exact atOnce ((accept_error start f bytes s e hfl hd).trans (accept_error exec f bytes s e hfl hd).symm)
    | ok i =>
      cases hi : opening i with
      | none =>
        refine atOnce ?_
        rw [accept_ok start f bytes s i hfl hd, accept_ok exec f bytes s i hfl hd, start_of_no_opening hi]
      | some p =>
        obtain ⟨t, ht, n, hn, hticks⟩ := exec_reaches hi hfl
        rw [accept_ok start f bytes s i hfl hd, start_of_opening hi] at hissued
        refine ⟨n, hn, ?_⟩
        rw [core_run_next n issued _ hissued, accept_ok exec f bytes s i hfl hd, ht]
        exact hticks.run hslot hinbox (.inr hrsp)

/-- Settles O52: both grains take up the same bytes in the same state, and `accept_start_ends` compares what follows. -/
theorem issuedOperationEndsAsCalled : Obligations.IssuedOperationEndsAsCalled := by
  unfold Obligations.IssuedOperationEndsAsCalled
  refine ⟨fun s bytes => ?_, fun s f bytes => ?_⟩
  · exact accept_start_ends .req bytes { s with slot := none, inbox := [], rsp := none } _ _ rfl rfl rfl rfl rfl
  · exact accept_start_ends f bytes { s with slot := none, inbox := [], rsp := none } _ _ rfl rfl rfl rfl rfl

end Sys2Proof.Machine
end

section
/-! What an instruction leaves unchanged (20_memory.md R42, 10_state.md R11), and what a step makes of the tables, the slot and
the latches. -/

namespace Sys2Proof.Machine

/-! ## Instructions -/

/-- Settles O38: each row's next state, field by field. -/
theorem instructionFrame : Obligations.InstructionFrame := by
  unfold Obligations.InstructionFrame
  intro i s t h
  cases i with
  | init =>
    cases h
    exact ⟨rfl, rfl, rfl, fun hne => absurd rfl hne, fun _ _ _ => rfl, by simp [Instr.format]⟩
  | poll u =>
    cases h
    exact ⟨rfl, rfl, rfl, fun _ => ⟨rfl, rfl⟩, fun hne _ _ => absurd rfl (hne u), fun _ => rfl⟩
  | setmouse e =>
    cases h
    exact ⟨rfl, rfl, rfl, fun _ => ⟨rfl, rfl⟩, fun _ hne _ => absurd rfl (hne e), fun _ => rfl⟩
  | cmdDiskbd | cmdWrout | cmdEnkbd | cmdDismouse | cmdEnmouse =>
    cases h
    exact ⟨rfl, rfl, rfl, fun _ => ⟨rfl, rfl⟩, fun _ _ hne => absurd rfl hne, fun _ => rfl⟩
  | xlate | scLctrl | scLshift | scRshift | scLalt | scBreak | scCtrlbyte | scKey =>
    cases h
    exact ⟨rfl, rfl, rfl, fun _ => ⟨rfl, rfl⟩, fun _ _ _ => rfl, by simp [Instr.format]⟩

/-- An instruction without port events leaves the bus, and whatever is in flight it leaves or abandons. -/
theorem exec_of_no_opening {i : Instr} {s t : State} (hi : opening i = none) (h : exec i s = .next t) :
    t.bus = s.bus ∧ (t.inFlight = s.inFlight ∨ t.inFlight = none) := by
  cases i with
  | poll | setmouse | cmdDiskbd | cmdWrout | cmdEnkbd | cmdDismouse | cmdEnmouse => cases hi
  | init => cases h; exact ⟨rfl, .inr rfl⟩
  | xlate | scLctrl | scLshift | scRshift | scLalt | scBreak | scCtrlbyte | scKey => cases h; exact ⟨rfl, .inl rfl⟩

/-- The rows and bytes that write a latch, but for INIT. -/
theorem exec_latches {i : Instr} {s t : State} (h : exec i s = .next t) : t.latches = s.latches ∨ i = .init ∨
    (∃ r, i = .scLctrl r ∨ i = .scLshift r ∨ i = .scRshift r ∨ i = .scLalt r) ∨
    ∃ raw, i = .xlate raw ∧ raw ∈ [0x1d, 0x9d, 0x2a, 0xaa, 0x36, 0xb6, 0x38, 0xb8] := by
  cases i with
  | init => exact .inr (.inl rfl)
  | scLctrl r => exact .inr (.inr (.inl ⟨r, .inl rfl⟩))
  | scLshift r => exact .inr (.inr (.inl ⟨r, .inr (.inl rfl)⟩))
  | scRshift r => exact .inr (.inr (.inl ⟨r, .inr (.inr (.inl rfl))⟩))
  | scLalt r => exact .inr (.inr (.inl ⟨r, .inr (.inr (.inr rfl))⟩))
  | xlate raw =>
    by_cases hraw : raw ∈ [0x1d, 0x9d, 0x2a, 0xaa, 0x36, 0xb6, 0x38, 0xb8]
    · exact .inr (.inr (.inr ⟨raw, rfl, hraw⟩))
    · cases h
      exact .inl (congrArg Prod.snd (xlateByte_other (baseCode_notMem_modifierBases hraw)))
  | poll | setmouse | cmdDiskbd | cmdWrout | cmdEnkbd | cmdDismouse | cmdEnmouse | scBreak | scCtrlbyte | scKey =>
    cases h
    exact .inl rfl

/-! ## Steps -/

/-- Everything a step that goes on can have done, by what is in flight before and after it: an instruction is run whole, or it
is put in flight, or the block is reset, or the host writes its table, or an event follows. -/
theorem step_kinds {s t : State} (h : step s = .next t) :
    (∃ i, s.nextInstr = some i ∧ s.inFlight = none ∧
      (exec i s.taken = .next t ∨ ∃ p, opening i = some p ∧ t = { s.taken with inFlight := some p })) ∨
    (s.nextIsReset ∧ t = s.consume.applyReset) ∨
    (s.slot = none ∧ ((∃ i v, t = s.consume.setHostEntry i v) ∨ t = advance s.consume)) := by
  rcases step_cases s t h with ⟨i, hi, hfl, hexec | hstart⟩ | hreset | ⟨hslot, ⟨a, v, rest, -, ht⟩ | ht⟩
  · exact .inl ⟨i, hi, hfl, .inl hexec⟩
  · refine .inl ⟨i, hi, hfl, ?_⟩
    cases hp : opening i with
    | none => exact .inl (by rwa [start_of_no_opening hp] at hstart)
    | some p =>
      rw [start_of_opening hp] at hstart
      exact .inr ⟨p, rfl, (Host.Outcome.next.inj hstart).symm⟩
  · exact .inr (.inl hreset)
  · exact .inr (.inr ⟨hslot, .inl ⟨a, v, ht⟩⟩)
  · exact .inr (.inr ⟨hslot, .inr ht⟩)

/-- Every step leaves the slot empty. -/
theorem step_slot {s t : State} (h : step s = .next t) : t.slot = none := by
  rcases step_kinds h with ⟨i, -, -, hexec | ⟨p, -, rfl⟩⟩ | ⟨⟨hslot, -⟩, rfl⟩ | ⟨hslot, ⟨a, v, rfl⟩ | rfl⟩
  · obtain ⟨-, hslot, -⟩ := instructionFrame i s.taken t hexec
    exact hslot.trans s.taken_slot
  · exact s.taken_slot
  · exact hslot
  · exact hslot
  · exact (advance_same s.consume).slot.trans hslot

/-- Every step leaves the host's table or writes one entry of it. -/
theorem step_hostMap {s t : State} (h : step s = .next t) :
    t.hostMap = s.hostMap ∨ ∃ a v : Byte, t.hostMap = s.hostMap.write a v := by
  rcases step_kinds h with ⟨i, -, -, hexec | ⟨p, -, rfl⟩⟩ | ⟨-, rfl⟩ | ⟨-, ⟨a, v, rfl⟩ | rfl⟩
  · obtain ⟨-, -, hhost, -⟩ := instructionFrame i s.taken t hexec
    exact .inl (hhost.trans s.taken_hostMap)
  · exact .inl s.taken_hostMap
  · exact .inl rfl
  · exact .inr ⟨a, v, rfl⟩
  · exact .inl (advance_same s.consume).hostMap

/-- Settles O36: of the kinds of step only INIT and the reset input touch the bound table; the table input by evaluation. -/
theorem tableIsBoundByInitOrResetOnly : Obligations.TableIsBoundByInitOrResetOnly := by
  unfold Obligations.TableIsBoundByInitOrResetOnly
  refine ⟨fun s t h => ?_, fun s a v rest hslot hinbox => ?_⟩
  · rcases step_kinds h with ⟨i, hi, -, hexec | ⟨p, -, rfl⟩⟩ | ⟨hreset, rfl⟩ | ⟨-, ⟨a, v, rfl⟩ | rfl⟩
    · by_cases hinit : i = .init
      · subst hinit
        cases hexec
        exact .inr ⟨s.taken_hostMap, .inr hi⟩
      · obtain ⟨-, -, -, hmap, -⟩ := instructionFrame i s.taken t hexec
        exact .inl ((hmap hinit).1.trans s.taken_map)
    · exact .inl s.taken_map
    · exact .inr ⟨rfl, .inl hreset⟩
    · exact .inl rfl
    · exact .inl (advance_same s.consume).map
  · rw [step_of_no_slot s hslot, stepInput, hinbox, State.consume, hinbox]
    rfl

/-- Settles O47: of the kinds of step only the reset input and an instruction touch the latches, the latter by `exec_latches`. -/
theorem latchesHaveNoOtherWriter : Obligations.LatchesHaveNoOtherWriter := by
  unfold Obligations.LatchesHaveNoOtherWriter
  intro s t h hne
  rcases step_kinds h with ⟨i, hi, -, hexec | ⟨p, -, rfl⟩⟩ | ⟨hreset, -⟩ | ⟨-, ⟨a, v, rfl⟩ | rfl⟩
  · have hwriter := (exec_latches hexec).resolve_left (by rwa [s.taken_latches])
    exact .inr ⟨i, hi, hwriter⟩
  · exact absurd s.taken_latches hne
  · exact .inl hreset
  · exact absurd rfl hne
  · exact absurd (advance_same s.consume).latches hne

end Sys2Proof.Machine
end

section
/-! Invariants of the ports and of the operation in flight: what every event keeps, every step keeps. -/

namespace Sys2Proof.Machine

/-- A property of the bus and of what is in flight is kept by a step if every event keeps it, every operation that the step can
put in flight has it to begin with, and abandoning an operation keeps it: an instruction run whole does its events
(`exec_reaches`). -/
theorem step_keeps {P : Bus → Option InFlight → Prop} {s t : State} (h : step s = .next t)
    (htick : ∀ p (s : State), P s.bus (some p) → P (tick p s).bus (tick p s).inFlight)
    (hopen : ∀ i p b, s.nextInstr = some i → opening i = some p → P b none → P b (some p))
    (hstop : ∀ b fl, P b fl → P b none) (hs : P s.bus s.inFlight) : P t.bus t.inFlight := by
  rcases step_kinds h with ⟨i, hi, hfl, hrun⟩ | ⟨-, rfl⟩ | ⟨-, ⟨a, v, rfl⟩ | rfl⟩
  · rw [hfl] at hs
    rw [← s.taken_bus] at hs
    have htaken : s.taken.inFlight = none := s.taken_inFlight.trans hfl
    rcases hrun with hexec | ⟨p, hp, rfl⟩
    · cases hp : opening i with
      | none =>
        obtain ⟨hbus, hfl'⟩ := exec_of_no_opening hp hexec
        rw [htaken, or_self] at hfl'
        rwa [hbus, hfl']
      | some p =>
        obtain ⟨t', ht', hreach⟩ := exec_reaches hp htaken
        cases Host.Outcome.next.inj (hexec.symm.trans ht')
        refine hreach.keeps (P := fun s => P s.bus s.inFlight) (fun p s hp hs => htick p s (hp ▸ hs)) ?_
        exact hopen i p _ hi hp hs
    · exact hopen i p _ hi hp hs
  · exact hstop _ _ hs
  · exact hs
  · cases hfl : s.inFlight with
    | none =>
      rw [advance_idle s.consume hfl]
      exact hs
    | some p =>
      rw [advance_busy s.consume p hfl]
      exact htick p s.consume (hfl ▸ hs)

/-! ## The trace -/

/-- Settles O39: each event extends the trace by itself and takes an answer if it is a read (`tick_bus`). -/
theorem stepExtendsTheTrace : Obligations.StepExtendsTheTrace := by
  unfold Obligations.StepExtendsTheTrace
  intro s t h
  refine step_keeps (P := fun b _ => ∃ evs, b = s.bus.after (statusReads evs + dataReads evs) evs) h ?_
    (fun _ _ _ _ _ hb => hb) (fun _ _ hb => hb) ⟨[], rfl⟩
  rintro p s' ⟨evs, hevs⟩
  refine ⟨[p.event s'.bus] ++ evs, ?_⟩
  rw [tick_bus, hevs, Bus.after_after, statusReads_append, dataReads_append]
  congr 1
  omega

/-! ## The host's operations -/

/-- A request decodes to one of the host's four operations. -/
theorem hostOperation_of_decode {bytes : List Byte} {i : Instr} (h : decode .req bytes = .ok i) : hostOperation i := by
  obtain ⟨-, hformat⟩ := decodedInstructionsAreWellFormed .req bytes i h
  cases i with
  | poll u => exact .inl ⟨u, rfl⟩
  | xlate raw => exact .inr (.inl ⟨raw, rfl⟩)
  | setmouse e => exact .inr (.inr (.inl ⟨e, rfl⟩))
  | init => exact .inr (.inr (.inr rfl))
  | _ => cases hformat

theorem decode_of_decoded {f : Format} {bytes : List Byte} {i : Instr} (h : decoded f bytes = some i) :
    decode f bytes = .ok i := by
  unfold decoded at h
  split at h
  · cases h
    assumption
  · cases h

/-- With no row placed, what the next step takes up is a request. -/
theorem hostOperation_of_nextInstr {s : State} {i : Instr} (hslot : s.slot = none) (h : s.nextInstr = some i) :
    hostOperation i := by
  unfold State.nextInstr at h
  rw [hslot] at h
  split at h
  · cases ‹none = some _›
  · split at h
    · exact hostOperation_of_decode (decode_of_decoded h)
    · exact hostOperation_of_decode (decode_of_decoded h)
    · cases h

theorem hostOnly_iff (s : State) :
    s.hostOnly = true ↔ s.slot = none ∧ ∀ p, s.inFlight = some p → p.ofHost = true := by
  unfold State.hostOnly
  cases s.inFlight <;> simp

theorem opening_ofHost {i : Instr} {p : InFlight} (hi : hostOperation i) (hp : opening i = some p) : p.ofHost = true := by
  rcases hi with ⟨u, rfl⟩ | ⟨raw, rfl⟩ | ⟨e, rfl⟩ | rfl <;> cases hp <;> rfl

theorem afterWrite_ofHost {k : Caller} (hk : k.ofHost = true) {s : State} {p : InFlight}
    (hp : (afterWrite k s).inFlight = some p) : p.ofHost = true := by
  cases k with
  | setmouse => cases hp
  | unget st b m => cases st <;> cases hp <;> rfl
  | command => cases hk

theorem tick_ofHost {p : InFlight} (hp : p.ofHost = true) (s : State) {q : InFlight}
    (hq : (tick p s).inFlight = some q) : q.ofHost = true := by
  cases p with
  | pollStatus u n =>
    cases hq
    split <;> rfl
  | pollData u n snap =>
    rw [tick] at hq
    split at hq
    · cases hq
      rfl
    · cases u <;> cases hq
      rfl
  | pollStall u n =>
    rw [tick] at hq
    split at hq <;> cases hq
    rfl
  | writeStatus k n =>
    cases hq
    split <;> exact hp
  | writeByte k n snap => exact afterWrite_ofHost hp hq
  | writeStall k n =>
    rw [tick] at hq
    split at hq
    · exact afterWrite_ofHost hp hq
    · cases hq
      exact hp

/-- Settles O42: the slot stays empty, and an operation in flight is the host's when put there and after every event. -/
theorem everyStepKeepsToTheHostsOperations : Obligations.EveryStepKeepsToTheHostsOperations := by
  unfold Obligations.EveryStepKeepsToTheHostsOperations
  intro s t hs h
  obtain ⟨hslot, hfl⟩ := (hostOnly_iff s).mp hs
  refine (hostOnly_iff t).mpr ⟨step_slot h, ?_⟩
  refine step_keeps (P := fun _ fl => ∀ p, fl = some p → p.ofHost = true) h ?_ ?_ ?_ hfl
  · exact fun p s' hp q => tick_ofHost (hp p rfl) s'
  · intro i p b hi hp _ q hq
    cases hq
    exact opening_ofHost (hostOperation_of_nextInstr hslot hi) hp
  · exact fun _ _ _ p hp => nomatch hp

end Sys2Proof.Machine
end

section
/-! The handshakes (20_memory.md R35), the command codes (30_encoding.md R54) and the replayed byte (10_state.md R19): an
operation in flight that agrees with the trace does an allowed event next and agrees with the longer trace. -/

namespace Sys2Proof.Machine

/-! ## The trace and the operation in flight -/

/-- The part of the invariant that speaks of the bus and of what is in flight. -/
def Disciplined (b : Bus) (fl : Option InFlight) : Prop :=
  handshaked b.log = true ∧ ∀ p, fl = some p → p.consistent b.log = true

theorem inv_iff (s : State) :
    s.inv = true ↔ s.map.wf = true ∧ s.hostMap.wf = true ∧ Disciplined s.bus s.inFlight := by
  unfold State.inv Disciplined
  cases s.inFlight <;> simp [and_assoc]

theorem handshaked_cons (e : Event) (tr : List Event) :
    handshaked (e :: tr) = true ↔ e.allowed tr = true ∧ handshaked tr = true := by
  rw [handshaked, Bool.and_eq_true]

theorem budgetOk_iff (n : Nat) : budgetOk n = true ↔ 0 < n ∧ n ≤ 12000 := by
  rw [budgetOk, Bool.and_eq_true, decide_eq_true_iff, decide_eq_true_iff]
  exact Iff.rfl

theorem budgetOk_pred {n : Nat} (h : budgetOk n = true) (hne : n - 1 ≠ 0) : budgetOk (n - 1) = true := by
  rw [budgetOk_iff] at *
  omega

theorem budgetOk_budget : budgetOk Config.budget = true := (budgetOk_iff _).mpr ⟨by decide, by decide⟩

/-! ## The event that comes next is allowed -/

theorem obfJustSeen_of_head? {tr : List Event} {snap : Byte} (h : tr.head? = some (.read .statusCmd snap)) :
    obfJustSeen tr = (decodeStatus snap).obf := by
  obtain ⟨tl, rfl⟩ := List.head?_eq_some_iff.mp h
  rfl

theorem ibfClearJustSeen_of_head? {tr : List Event} {snap : Byte} (h : tr.head? = some (.read .statusCmd snap)) :
    ibfClearJustSeen tr = !(decodeStatus snap).ibf := by
  obtain ⟨tl, rfl⟩ := List.head?_eq_some_iff.mp h
  rfl

/-- What a consistent caller writes is a command's code or the latest byte read. -/
theorem target_allowed {k : Caller} {tr : List Event} (hk : k.consistent tr = true) (hibf : ibfClearJustSeen tr = true) :
    (Event.write k.target.1.port k.target.2).allowed tr = true := by
  have command : ∀ c : Command, (Event.write .statusCmd c.code).allowed tr = true := fun c => by
    rw [Event.allowed, hibf, decodeCommand_code]
    rfl
  cases k with
  | setmouse e => exact command (mouseCommand e)
  | command c => exact command c
  | unget st b m =>
    cases st with
    | disable => exact command .disKbd
    | writeOut => exact command .wrOut
    | payload => exact Bool.and_eq_true_iff.mpr ⟨hibf, hk⟩
    | enable => exact command .enKbd

theorem consistent_pollData {tr : List Event} {u : Bool} {n : Nat} {snap : Byte} :
    (InFlight.pollData u n snap).consistent tr = true ↔
      budgetOk n = true ∧ tr.head? = some (.read .statusCmd snap) ∧ (decodeStatus snap).obf = true := by
  simp [InFlight.consistent, and_assoc]

theorem consistent_writeByte {tr : List Event} {k : Caller} {n : Nat} {snap : Byte} :
    (InFlight.writeByte k n snap).consistent tr = true ↔
      budgetOk n = true ∧ k.consistent tr = true ∧ tr.head? = some (.read .statusCmd snap) ∧
        (decodeStatus snap).ibf = false := by
  simp [InFlight.consistent, and_assoc]

theorem event_allowed {p : InFlight} {b : Bus} (h : p.consistent b.log = true) : (p.event b).allowed b.log = true := by
  cases p with
  | pollStatus | pollStall | writeStatus | writeStall => rfl
  | pollData u n snap =>
    obtain ⟨-, hhead, hobf⟩ := consistent_pollData.mp h
    exact (obfJustSeen_of_head? hhead).trans hobf
  | writeByte k n snap =>
    obtain ⟨-, hk, hhead, hibf⟩ := consistent_writeByte.mp h
    exact target_allowed hk (by rw [ibfClearJustSeen_of_head? hhead, hibf]; rfl)

/-! ## The position after the event is consistent -/

/-- Only a data read changes what a replay must carry. -/
theorem Caller.consistent_of_lastData {k : Caller} {tr tr' : List Event} (h : lastData tr' = lastData tr)
    (hk : k.consistent tr = true) : k.consistent tr' = true := by
  cases k with
  | unget st b m => rwa [Caller.consistent, h]
  | setmouse | command => rfl

theorem consistent_writeStatus {k : Caller} {n : Nat} {tr : List Event} (hn : budgetOk n = true)
    (hk : k.consistent tr = true) : (InFlight.writeStatus k n).consistent tr = true := by
  rw [InFlight.consistent, hn, hk]
  rfl

theorem afterWrite_consistent {k : Caller} {tr : List Event} (hk : k.consistent tr = true) {s : State} {q : InFlight}
    (hq : (afterWrite k s).inFlight = some q) : q.consistent tr = true := by
  cases k with
  | setmouse | command => cases hq
  | unget st b m => cases st <;> cases hq <;> exact consistent_writeStatus budgetOk_budget hk

theorem tick_consistent {p : InFlight} {s : State} (h : p.consistent s.bus.log = true) {q : InFlight}
    (hq : (tick p s).inFlight = some q) : q.consistent (p.event s.bus :: s.bus.log) = true := by
  cases p with
  | pollStatus u n =>
    cases hq
    rw [readStatus_eq, InFlight.event]
    split
    · exact consistent_pollData.mpr ⟨h, rfl, ‹_›⟩
    · exact h
  | pollData u n snap =>
    obtain ⟨hn, -, -⟩ := consistent_pollData.mp h
    rw [tick] at hq
    split at hq
    · cases hq
      exact hn
    · cases u <;> cases hq
      refine consistent_writeStatus budgetOk_budget ?_
      simp [Caller.consistent, InFlight.event, readData_eq, lastData]
  | pollStall u n =>
    rw [tick] at hq
    split at hq <;> cases hq
    exact budgetOk_pred h ‹_›
  | writeStatus k n =>
    obtain ⟨hn, hk⟩ := Bool.and_eq_true_iff.mp h
    have hk' : k.consistent (.read .statusCmd (s.bus.upcoming 0) :: s.bus.log) = true :=
      Caller.consistent_of_lastData rfl hk
    cases hq
    rw [readStatus_eq, InFlight.event]
    split
    · exact consistent_writeStatus hn hk'
    · exact consistent_writeByte.mpr ⟨hn, hk', rfl, Bool.eq_false_iff.mpr ‹_›⟩
  | writeByte k n snap =>
    obtain ⟨-, hk, -, -⟩ := consistent_writeByte.mp h
    have hk' : k.consistent (.write k.target.1.port k.target.2 :: s.bus.log) = true :=
      Caller.consistent_of_lastData rfl hk
    exact afterWrite_consistent hk' hq
  | writeStall k n =>
    obtain ⟨hn, hk⟩ := Bool.and_eq_true_iff.mp h
    have hk' : k.consistent (.stall :: s.bus.log) = true := Caller.consistent_of_lastData rfl hk
    rw [tick] at hq
    split at hq
    · exact afterWrite_consistent hk' hq
    · cases hq
      exact consistent_writeStatus (budgetOk_pred hn ‹_›) hk'

theorem tick_disciplined {p : InFlight} {s : State} (h : Disciplined s.bus (some p)) :
    Disciplined (tick p s).bus (tick p s).inFlight := by
  obtain ⟨hlog, hp⟩ := h
  have htr : (tick p s).bus.log = p.event s.bus :: s.bus.log := by rw [tick_bus]; rfl
  rw [Disciplined, htr, handshaked_cons]
  exact ⟨⟨event_allowed (hp p rfl), hlog⟩, fun q hq => tick_consistent (hp p rfl) hq⟩

theorem opening_consistent {i : Instr} {p : InFlight} (h : opening i = some p) (tr : List Event) : p.consistent tr = true := by
  cases i <;> cases h <;> rfl

/-! ## The obligations -/

theorem Table.wf_write (t : Table) (i v : Byte) (h : t.wf = true) : (t.write i v).wf = true :=
  Table.wfFrom_set 0 t i.toNat v i.isLt (Nat.zero_le _) h

/-- Settles O48: the trace and the operation in flight by `step_keeps`, whose event case is `tick_disciplined`; the tables by what
a step makes of them. -/
theorem everyStepKeepsTheHandshakes : Obligations.EveryStepKeepsTheHandshakes := by
  unfold Obligations.EveryStepKeepsTheHandshakes
  intro s t hs h
  obtain ⟨hmap, hhost, hdis⟩ := (inv_iff s).mp hs
  refine (inv_iff t).mpr ⟨?_, ?_, ?_⟩
  · rcases tableIsBoundByInitOrResetOnly.1 s t h with hsame | ⟨hbound, -⟩
    · rwa [hsame]
    · rwa [hbound]
  · rcases step_hostMap h with hsame | ⟨a, v, hwritten⟩
    · rwa [hsame]
    · rw [hwritten]
      exact Table.wf_write s.hostMap a v hhost
  · refine step_keeps (P := Disciplined) h (fun p s' => tick_disciplined) ?_ ?_ hdis
    · rintro i p b - hp ⟨hlog, -⟩
      refine ⟨hlog, fun q hq => ?_⟩
      cases hq
      exact opening_consistent hp b.log
    · exact fun b fl hb => ⟨hb.1, fun p hp => nomatch hp⟩

/-- Settles O49: both tables are made by `Table.ofFn`, the trace is empty and nothing is in flight. -/
theorem resetStateHasTheInvariant : Obligations.ResetStateHasTheInvariant := by
  unfold Obligations.ResetStateHasTheInvariant
  have hwf : (Table.ofFn Config.scancodeMap).wf = true := Table.wfFrom_ofFnFrom Config.scancodeMap 0 256 (le_refl 256)
  exact (inv_iff State.reset).mpr ⟨hwf, hwf, rfl, fun p hp => nomatch hp⟩

end Sys2Proof.Machine
end

section
/-! The status byte, the response word and the ports (30_encoding.md R53, R56; 20_memory.md R39), and `ReadByte`. -/

namespace Sys2Proof.Machine

/-- Settles O7: the mask 0xa3 keeps bits 0, 1, 5 and 7, so bytes that agree under it agree on them. -/
theorem statusByteDecode : Obligations.StatusByteDecode := by
  unfold Obligations.StatusByteDecode
  refine fun s => ⟨rfl, fun s' h => ?_⟩
  have keeps : ∀ (i : Nat) (hi : i < 8), (0xa3 : Byte)[i] = true → s'[i] = s[i] := by
    intro i hi hmask
    have hbit : (s &&& 0xa3)[i] = (s' &&& 0xa3)[i] := by rw [h]
    rw [BitVec.getElem_and, BitVec.getElem_and, hmask, Bool.and_true, Bool.and_true] at hbit
    exact hbit.symm
  rw [decodeStatus, decodeStatus, keeps 0 (by decide) rfl, keeps 1 (by decide) rfl, keeps 5 (by decide) rfl,
    keeps 7 (by decide) rfl]

/-- Settles O8: no field of a response word overflows the ten bits. -/
theorem responseWordFields : Obligations.ResponseWordFields := by
  unfold Obligations.ResponseWordFields
  refine ⟨fun free b m => ?_, encodeRsp_timeout_st, fun free c => ?_, fun _ => rfl, fun _ => rfl⟩
  · have hb := b.isLt
    have hm := m.toNat_lt
    rw [encodeRsp, BitVec.toNat_ofNat]
    omega
  · have hc := c.isLt
    rw [encodeRsp, BitVec.toNat_ofNat]
    omega

/-- Settles O9: `dataPort` is made from a free number, and the one clash moves it away. -/
theorem portsAreDifferent : Obligations.PortsAreDifferent := by
  unfold Obligations.PortsAreDifferent
  rw [Port.address, Port.address, Config.dataPort]
  split
  · omega
  · exact Ne.symm ‹_›

/-- Settles O11: the three cases of `ReadByte`, each by its own equation. -/
theorem readByteVerdict : Obligations.ReadByteVerdict := by
  unfold Obligations.ReadByteVerdict
  exact fun b => ⟨readByte_noData b, readByte_parity b, readByte_ok b⟩

end Sys2Proof.Machine
end

section
/-! `WriteRegister` and the rows that call it once (40_portio.md R72, R73; 44_mouse_init.md R140 to R143). -/

namespace Sys2Proof.Machine

theorem WriteReg.port_eq (r : WriteReg) : r.port = if r = .cmd then .statusCmd else .data := by cases r <;> rfl

/-- Settles O12: the loop's two ends, with the budget of 12000 passes. -/
theorem writeRegisterExactCounts : Obligations.WriteRegisterExactCounts := by
  unfold Obligations.WriteRegisterExactCounts
  intro r v b
  rw [← r.port_eq]
  exact ⟨fun k hk => writeLoop_ok r v b 12000 k hk, writeLoop_fail r v b 12000⟩

theorem exec_setmouse (e : Bool) (s : State) : exec (.setmouse e) s =
    .next { s with bus := (writeRegister .cmd (mouseCommand e).code s.bus).2, rsp := some .ok } := rfl

theorem mouseCommand_code (e : Bool) : (mouseCommand e).code = if e then 0xa8 else 0xa7 := by cases e <;> rfl

/-- Settles O20: SETMOUSE is one `WriteRegister`, and answers success at both of its ends. -/
theorem setMouseAlwaysReportsSuccess : Obligations.SetMouseAlwaysReportsSuccess := by
  unfold Obligations.SetMouseAlwaysReportsSuccess
  intro e s
  obtain ⟨hwrite, hfail⟩ := writeRegisterExactCounts .cmd (mouseCommand e).code s.bus
  rw [exec_setmouse, ← mouseCommand_code]
  refine ⟨fun k hk hbusy hclear => ?_, fun hbusy => ?_⟩
  · rw [hwrite k hk hbusy hclear]
    rfl
  · rw [hfail hbusy]

theorem exec_command (c : Command) (s : State) :
    exec c.instr s = .next { s with bus := (writeRegister .cmd c.code s.bus).2, rsp := none } := by
  cases c <;> rfl

/-- Settles O21: each pair is a command's row and code, and the row is one `WriteRegister` of the code. -/
theorem commandRowsWriteTheirCode : Obligations.CommandRowsWriteTheirCode := by
  unfold Obligations.CommandRowsWriteTheirCode
  intro i code s hmem
  obtain ⟨c, rfl, rfl⟩ : ∃ c : Command, i = c.instr ∧ code = c.code := by
    simp only [List.mem_cons, List.not_mem_nil, or_false, Prod.mk.injEq] at hmem
    rcases hmem with ⟨rfl, rfl⟩ | ⟨rfl, rfl⟩ | ⟨rfl, rfl⟩ | ⟨rfl, rfl⟩ | ⟨rfl, rfl⟩
    · exact ⟨.disKbd, rfl, rfl⟩
    · exact ⟨.wrOut, rfl, rfl⟩
    · exact ⟨.enKbd, rfl, rfl⟩
    · exact ⟨.disMouse, rfl, rfl⟩
    · exact ⟨.enMouse, rfl, rfl⟩
  obtain ⟨hwrite, hfail⟩ := writeRegisterExactCounts .cmd c.code s.bus
  rw [exec_command]
  refine ⟨fun k hk hbusy hclear => ?_, fun hbusy => ?_⟩
  · rw [hwrite k hk hbusy hclear]
    rfl
  · rw [hfail hbusy]

/-! ## The trace of a `WriteRegister` -/

theorem busyPasses_trace (b : Bus) (k : Nat) : writes (busyPasses b k) = [] ∧ statusReads (busyPasses b k) = k ∧
    dataReads (busyPasses b k) = 0 ∧ stalls (busyPasses b k) = k := by
  induction k with
  | zero => exact ⟨rfl, rfl, rfl, rfl⟩
  | succ k ih => simpa [busyPasses] using ih

/-- A `WriteRegister` makes its write or none, and its reads and stalls are bounded by the budget. -/
theorem writeRegister_trace (r : WriteReg) (v : Byte) (b : Bus) : ∃ n evs, (writeRegister r v b).2 = b.after n evs ∧
    (writes evs = [(r.port, v)] ∨ writes evs = []) ∧ statusReads evs ≤ 12000 ∧ dataReads evs = 0 ∧ stalls evs ≤ 12000 := by
  rcases writeLoop_cases 12000 b with ⟨k, hk, hbusy, hclear⟩ | hbusy
  · obtain ⟨hwrites, hstatus, hdata, hstalls⟩ := busyPasses_trace b k
    refine ⟨_, _, congrArg Prod.snd (writeLoop_ok r v b 12000 k hk hbusy hclear), ?_⟩
    simp only [writes_write, writes_read, hwrites, statusReads_write, statusReads_status, hstatus, dataReads_write,
      dataReads_status, hdata, stalls_write, stalls_read, hstalls, true_or, true_and]
    omega
  · obtain ⟨hwrites, hstatus, hdata, hstalls⟩ := busyPasses_trace b 12000
    exact ⟨_, _, congrArg Prod.snd (writeLoop_fail r v b 12000 hbusy), .inr hwrites, hstatus.le, hdata, hstalls.le⟩

end Sys2Proof.Machine
end

section
/-! The unget sequence (42_poller.md R93, R94): a list of writes, each made or not. -/

namespace Sys2Proof.Machine

/-- One `WriteRegister` after another, their results discarded. -/
def writeAll : List (WriteReg × Byte) → Bus → Bus
  | [], b => b
  | (r, v) :: ws, b => writeAll ws (writeRegister r v b).2

/-- The four calls of the unget sequence for byte `v`. -/
def ungetCalls (v : Byte) : List (WriteReg × Byte) := [(.cmd, 0xad), (.cmd, 0xd2), (.data, v), (.cmd, 0xae)]

/-- The write that a call makes if it makes one. -/
def callWrite (c : WriteReg × Byte) : Port × Byte := (c.1.port, c.2)

theorem unget_eq_writeAll (v : Byte) (b : Bus) : unget v b = writeAll (ungetCalls v) b := rfl

theorem ungetCalls_map_callWrite (v : Byte) : (ungetCalls v).map callWrite =
    [(.statusCmd, 0xad), (.statusCmd, 0xd2), (.data, v), (.statusCmd, 0xae)] := rfl

/-- The writes of some calls are some of theirs, in order; each call's reads and stalls are bounded by the budget. -/
theorem writeAll_trace (ws : List (WriteReg × Byte)) (b : Bus) : ∃ n evs, writeAll ws b = b.after n evs ∧
    List.Sublist (writes evs).reverse (ws.map callWrite) ∧ statusReads evs ≤ 12000 * ws.length ∧ dataReads evs = 0 ∧
    stalls evs ≤ 12000 * ws.length := by
  induction ws generalizing b with
  | nil => exact ⟨0, [], b.after_zero.symm, List.Sublist.slnil, by simp⟩
  | cons c ws ih =>
    obtain ⟨r, v⟩ := c
    obtain ⟨n, evs, hbus, hwrites, hstatus, hdata, hstalls⟩ := writeRegister_trace r v b
    obtain ⟨n', evs', hbus', hwrites', hstatus', hdata', hstalls'⟩ := ih (b.after n evs)
    refine ⟨n + n', evs' ++ evs, by rw [writeAll, hbus, hbus', Bus.after_after], ?_, ?_⟩
    · rw [writes_append, List.reverse_append, List.map_cons]
      rcases hwrites with hmade | hnone
      · rw [hmade]
        exact hwrites'.cons_cons _
      · rw [hnone]
        exact hwrites'.cons _
    · simp only [statusReads_append, dataReads_append, stalls_append, List.length_cons]
      omega

theorem upcoming_replicate {n j : Nat} (h : j < n) (v : Byte) (rest : List Byte) (reads : Nat) (log : List Event) :
    Bus.upcoming ⟨List.replicate n v ++ rest, reads, log⟩ j = v := by
  rw [Bus.upcoming, List.drop_append_of_le_length (by rw [List.length_replicate]; omega), List.drop_replicate]
  obtain ⟨m, hm⟩ : ∃ m, n - j = m + 1 := ⟨n - j - 1, by omega⟩
  rw [hm, List.replicate_succ]
  rfl

theorem Bus.after_answers (answers rest : List Byte) (reads : Nat) (log evs : List Event) :
    Bus.after ⟨answers ++ rest, reads, log⟩ answers.length evs = ⟨rest, reads + answers.length, evs ++ log⟩ := by
  rw [Bus.after, List.drop_left]

/-- The environment can let a `WriteRegister` through, by one answer, or keep it from writing, by 12000. -/
theorem writeRegister_choice (r : WriteReg) (v : Byte) (ws : List (Port × Byte)) (hws : ws = [(r.port, v)] ∨ ws = []) :
    ∃ answers, ∀ rest reads log, ∃ evs,
      (writeRegister r v ⟨answers ++ rest, reads, log⟩).2 = Bus.after ⟨answers ++ rest, reads, log⟩ answers.length evs ∧
        writes evs = ws := by
  rcases hws with rfl | rfl
  · refine ⟨[0x00], fun rest reads log => ?_⟩
    have hwrite := writeLoop_ok r v ⟨0x00 :: rest, reads, log⟩ Config.budget 0 (by decide)
      (fun j hj => absurd hj (Nat.not_lt_zero j)) (by simp [Bus.upcoming])
    exact ⟨_, congrArg Prod.snd hwrite, by simp [busyPasses]⟩
  · refine ⟨List.replicate Config.budget 0x02, fun rest reads log =>
      ⟨busyPasses ⟨List.replicate Config.budget 0x02 ++ rest, reads, log⟩ Config.budget, ?_, (busyPasses_trace _ _).1⟩⟩
    have hfail := writeLoop_fail r v ⟨List.replicate Config.budget 0x02 ++ rest, reads, log⟩ Config.budget
      (fun j hj => by rw [upcoming_replicate hj]; rfl)
    rw [List.length_replicate, writeRegister, hfail]

/-- Whichever of the calls' writes are chosen, the environment can answer so that these and no others are made. -/
theorem writeAll_choice (ws : List (WriteReg × Byte)) (chosen : List (Port × Byte))
    (h : List.Sublist chosen (ws.map callWrite)) : ∃ answers, ∀ reads log, ∃ n evs,
      writeAll ws ⟨answers, reads, log⟩ = Bus.after ⟨answers, reads, log⟩ n evs ∧ (writes evs).reverse = chosen := by
  induction ws generalizing chosen with
  | nil =>
    cases List.sublist_nil.mp h
    exact ⟨[], fun reads log => ⟨0, [], rfl, rfl⟩⟩
  | cons c ws ih =>
    obtain ⟨r, v⟩ := c
    obtain ⟨first, later, rfl, hfirst, hlater⟩ : ∃ first later, chosen = first ++ later ∧
        (first = [(r.port, v)] ∨ first = []) ∧ List.Sublist later (ws.map callWrite) := by
      rcases List.sublist_cons_iff.mp h with hskip | ⟨later, rfl, hlater⟩
      · exact ⟨[], chosen, rfl, .inr rfl, hskip⟩
      · exact ⟨[(r.port, v)], later, rfl, .inl rfl, hlater⟩
    obtain ⟨answers, hanswers⟩ := writeRegister_choice r v first hfirst
    obtain ⟨answers', hanswers'⟩ := ih later hlater
    refine ⟨answers ++ answers', fun reads log => ?_⟩
    obtain ⟨evs, hbus, hwrites⟩ := hanswers answers' reads log
    obtain ⟨n, evs', hbus', hwrites'⟩ := hanswers' (reads + answers.length) (evs ++ log)
    refine ⟨answers.length + n, evs' ++ evs, ?_, ?_⟩
    · rw [writeAll, hbus, ← Bus.after_after, Bus.after_answers, hbus']
    · rw [writes_append, List.reverse_append, hwrites', hwrites]
      rcases hfirst with rfl | rfl <;> rfl

/-- Settles O17: the unget sequence is `writeAll` of its four calls, so both halves are those of `writeAll`. -/
theorem ungetWritesAreAnySubset : Obligations.UngetWritesAreAnySubset := by
  unfold Obligations.UngetWritesAreAnySubset
  refine ⟨fun v b => ?_, fun v ws hws => ?_⟩ <;> simp only [unget_eq_writeAll, ← ungetCalls_map_callWrite] at *
  · obtain ⟨n, evs, hbus, hwrites, -⟩ := writeAll_trace (ungetCalls v) b
    exact ⟨n, evs, hbus, hwrites⟩
  · obtain ⟨answers, hanswers⟩ := writeAll_choice (ungetCalls v) ws hws
    exact ⟨⟨answers, 0, []⟩, hanswers 0 []⟩

end Sys2Proof.Machine
end

section
/-! The poller (42_poller.md R90 to R95, R101): its success, its replay, its response and its bounds. -/

namespace Sys2Proof.Machine

/-- Settles O13: the loop of POLL ends on its first good pass. -/
theorem pollSucceedsOnFirstGoodPass : Obligations.PollSucceedsOnFirstGoodPass := by
  unfold Obligations.PollSucceedsOnFirstGoodPass
  intro u s k v m b hk hfail hgood
  have hpoll : poll u s.bus = (.polled v m, if u then unget v b else b) := pollLoop_ok u s.bus 12000 k hk hfail v m b hgood
  rw [exec_poll, hpoll]

/-- With IBF clear in its first snapshot a `WriteRegister` writes right after it. -/
theorem writeRegister_first (r : WriteReg) (v : Byte) (b : Bus) (n : Nat) (evs : List Event)
    (h : (b.upcoming n)[1] = false) : (writeRegister r v (b.after n evs)).2 =
      b.after (n + 1) (.write r.port v :: .read .statusCmd (b.upcoming n) :: evs) := by
  rw [← Nat.add_zero n, ← Bus.upcoming_after b n 0 evs] at h
  have hwrite := writeLoop_ok r v (b.after n evs) 12000 0 (by decide) (fun j hj => absurd hj (Nat.not_lt_zero j)) h
  rw [Bus.after_after, Bus.upcoming_after] at hwrite
  exact congrArg Prod.snd hwrite

/-- Settles O16: the first pass is good, and each of the four calls of the replay writes after its first snapshot. -/
theorem ungetReplaysInOrder : Obligations.UngetReplaysInOrder := by
  unfold Obligations.UngetReplaysInOrder
  intro s v m b hread hclear
  rw [pollSucceedsOnFirstGoodPass true s 0 v m b (by decide) (fun j hj => absurd hj (Nat.not_lt_zero j)) hread, if_pos rfl]
  have hunget : unget v b = b.after 4 [.write .statusCmd 0xae, .read .statusCmd (b.upcoming 3),
      .write .data v, .read .statusCmd (b.upcoming 2), .write .statusCmd 0xd2, .read .statusCmd (b.upcoming 1),
      .write .statusCmd 0xad, .read .statusCmd (b.upcoming 0)] := by
    rw [unget, ← Bus.after_zero b, writeRegister_first _ _ b 0 _ (hclear 0 (by decide)),
      writeRegister_first _ _ b 1 _ (hclear 1 (by decide)), writeRegister_first _ _ b 2 _ (hclear 2 (by decide)),
      writeRegister_first _ _ b 3 _ (hclear 3 (by decide))]
    rfl
  rw [hunget]

theorem pollLoop_response (n : Nat) (b : Bus) : (pollLoop true n b).1 = (pollLoop false n b).1 := by
  rcases pollLoop_cases n b with ⟨k, hk, v, m, b', hfail, hgood⟩ | hfail
  · rw [pollLoop_ok true b n k hk hfail v m b' hgood, pollLoop_ok false b n k hk hfail v m b' hgood]
  · rw [pollLoop_timeout true b n hfail, pollLoop_timeout false b n hfail]

/-- Settles O18: by `pollLoop_response`, since the passes before the replay do not depend on the unget flag. -/
theorem replayLeavesTheResponse : Obligations.ReplayLeavesTheResponse := by
  unfold Obligations.ReplayLeavesTheResponse
  intro s t t' ht ht'
  cases ht
  cases ht'
  exact congrArg some (pollLoop_response Config.budget s.bus)

/-! ## The trace of POLL -/

/-- The trace fixes the events added to it. -/
theorem Bus.after_events_inj {b : Bus} {n m : Nat} {x y : List Event} (h : b.after n x = b.after m y) : x = y :=
  List.append_cancel_right (congrArg Bus.log h)

theorem readByte_dataReads {b : Bus} {n : Nat} {evs : List Event} (h : (readByte b).2 = b.after n evs) :
    dataReads evs ≤ 1 := by
  cases hobf : (b.upcoming 0)[0] with
  | false =>
    rw [readByte_noData b hobf] at h
    simp [← Bus.after_events_inj h]
  | true =>
    cases hperr : (b.upcoming 0)[7] with
    | false =>
      rw [readByte_ok b hobf hperr] at h
      simp [← Bus.after_events_inj h]
    | true =>
      rw [readByte_parity b hobf hperr] at h
      simp [← Bus.after_events_inj h]

theorem failedPasses_dataReads {b : Bus} {k n : Nat} {evs : List Event} (h : failedPasses b k = b.after n evs) :
    dataReads evs ≤ k := by
  induction k generalizing n evs with
  | zero =>
    rw [← Bus.after_events_inj (b.after_zero.trans h)]
    exact le_refl 0
  | succ k ih =>
    obtain ⟨m, before, hbefore, -⟩ := failedPasses_trace b k
    obtain ⟨l, pass, hpass, -⟩ := readByte_readsStatusOnce (failedPasses b k)
    have hk := ih hbefore
    have hone := readByte_dataReads hpass
    rw [failedPasses, hpass, hbefore, stall_eq, Bus.after_after, Bus.after_after] at h
    rw [← Bus.after_events_inj h]
    simp only [dataReads_append, dataReads_stall, dataReads_nil]
    omega

/-- POLL's events: at most 12000 passes, then at most the four calls of a replay. -/
theorem poll_trace (u : Bool) (b : Bus) : ∃ n evs, (poll u b).2 = b.after n evs ∧
    statusReads evs ≤ (if u then 60000 else 12000) ∧ dataReads evs ≤ 12000 ∧ stalls evs ≤ (if u then 59999 else 12000) ∧
    (writes evs).length ≤ (if u then 4 else 0) := by
  rcases pollLoop_cases 12000 b with ⟨k, hk, v, m, b', hfail, hgood⟩ | hfail
  · have hpoll : (poll u b).2 = if u then unget v b' else b' :=
      congrArg Prod.snd (pollLoop_ok u b 12000 k hk hfail v m b' hgood)
    obtain ⟨n₁, failed, hfailed, hwrites₁, hstalls₁, hstatus₁⟩ := failedPasses_trace b k
    obtain ⟨n₂, pass, hpass, hwrites₂, hstalls₂, hstatus₂⟩ := readByte_readsStatusOnce (failedPasses b k)
    have hdata₁ := failedPasses_dataReads hfailed
    have hdata₂ := readByte_dataReads hpass
    have hb' : b' = b.after (n₁ + n₂) (pass ++ failed) := by
      rw [hgood, hfailed, Bus.after_after] at hpass
      exact hpass
    cases u with
    | false =>
      refine ⟨_, _, hpoll.trans hb', ?_⟩
      simp only [statusReads_append, dataReads_append, stalls_append, writes_append, hwrites₁, hwrites₂, List.append_nil,
        List.length_nil, Bool.false_eq_true, reduceIte]
      omega
    | true =>
      obtain ⟨n₃, replay, hreplay, hwrites₃, hstatus₃, hdata₃, hstalls₃⟩ := writeAll_trace (ungetCalls v) b'
      have hcalls : (ungetCalls v).length = 4 := rfl
      have hlen := hwrites₃.length_le
      rw [List.length_reverse, List.length_map] at hlen
      rw [if_pos rfl, unget_eq_writeAll, hreplay, hb', Bus.after_after] at hpoll
      refine ⟨_, _, hpoll, ?_⟩
      simp only [statusReads_append, dataReads_append, stalls_append, writes_append, hwrites₁, hwrites₂, List.append_nil,
        reduceIte]
      omega
  · obtain ⟨n, evs, hevs, hwrites, hstalls, hstatus⟩ := failedPasses_trace b 12000
    refine ⟨n, evs, (congrArg Prod.snd (pollLoop_timeout u b 12000 hfail)).trans hevs, ?_, failedPasses_dataReads hevs, ?_, ?_⟩
    · rw [hstatus]
      cases u <;> decide
    · rw [hstalls]
      cases u <;> decide
    · rw [hwrites]
      exact Nat.zero_le _

/-- Settles O19: `poll_trace`, and the time stalled is the stalls times the unit. -/
theorem pollEventsAreBounded : Obligations.PollEventsAreBounded := by
  unfold Obligations.PollEventsAreBounded
  intro u s t h
  cases h
  obtain ⟨n, evs, hbus, hstatus, hdata, hstalls, hwrites⟩ := poll_trace u s.bus
  exact ⟨n, evs, hbus, hstatus, hdata, hstalls, Nat.mul_le_mul_right _ hstalls, hwrites⟩

end Sys2Proof.Machine
end

section
/-! INIT, the reset input and the reset state (44_mouse_init.md R144 to R146; 70_reset_and_hazards.md R170). -/

namespace Sys2Proof.Machine

/-- Settles O22: INIT's next state, written out. -/
theorem initBindsTableAndClearsLatches : Obligations.InitBindsTableAndClearsLatches := by
  unfold Obligations.InitBindsTableAndClearsLatches
  exact fun s => rfl

/-- Settles O23: what INIT writes does not depend on what it overwrites. -/
theorem initIsIdempotent : Obligations.InitIsIdempotent := by
  unfold Obligations.InitIsIdempotent
  intro s t h
  rw [initBindsTableAndClearsLatches] at h
  cases h
  exact initBindsTableAndClearsLatches _

/-- Settles O24: the input is taken, and the rest is `State.applyReset`. -/
theorem resetInputClearsTheBlock : Obligations.ResetInputClearsTheBlock := by
  unfold Obligations.ResetInputClearsTheBlock
  intro s rest hslot hinbox
  rw [step_of_no_slot s hslot, stepInput, hinbox, State.consume, hinbox]
  rfl

/-- The table of a function reads as the function. -/
theorem Table.read_ofFn (f : Byte → Byte) (i : Byte) : (Table.ofFn f).read i = f i := by
  rw [Table.read, Table.ofFn, Table.get_ofFnFrom f 0 256 i.toNat (le_refl 256), if_pos ⟨Nat.zero_le _, i.isLt⟩,
    BitVec.ofNat_toNat, BitVec.setWidth_eq]

/-- Settles O25: both tables of the reset state are `Table.ofFn` of the parameter. -/
theorem resetStateValues : Obligations.ResetStateValues := by
  unfold Obligations.ResetStateValues
  exact ⟨rfl, rfl, fun i => ⟨Table.read_ofFn Config.scancodeMap i, Table.read_ofFn Config.scancodeMap i⟩⟩

/-- Settles O43: the slot and the operation in flight of the reset state are empty. -/
theorem resetStateHasTheHostsOperationsOnly : Obligations.ResetStateHasTheHostsOperationsOnly := by
  unfold Obligations.ResetStateHasTheHostsOperationsOnly
  exact (hostOnly_iff State.reset).mpr ⟨rfl, fun p hp => nomatch hp⟩

/-- Settles O35: `Table.wf_write` and `Table.get_set`, since a table's indices are those of bytes. -/
theorem tableReadAfterWrite : Obligations.TableReadAfterWrite := by
  unfold Obligations.TableReadAfterWrite
  intro t i v h
  refine ⟨Table.wf_write t i v h, fun j => ?_⟩
  rw [Table.read, Table.write, Table.get_set 0 t i.toNat v j.toNat h, Table.read]
  simp only [BitVec.toNat_inj]

end Sys2Proof.Machine
end

section
/-! The translator and its class rows (43_translator.md R110 to R128): XLATE of a byte is the row of the byte's class. -/

namespace Sys2Proof.Machine

theorem baseCode_mem_modifierBases (raw : Byte) : baseCode raw ∈ modifierBases ↔ scBase raw ∈ modifierCodes := by
  rw [mem_modifierBases, mem_modifierCodes]
  exact or_congr (baseCode_eq_iff raw 0x1d) (or_congr (baseCode_eq_iff raw 0x2a)
    (or_congr (baseCode_eq_iff raw 0x36) (baseCode_eq_iff raw 0x38)))

theorem baseCode_lt (raw : Byte) : (baseCode raw).toNat < 0x80 := by
  rw [baseCode_toNat]
  omega

/-- Of the controller bytes only 0x00 is a base code (R116). -/
theorem baseCode_mem_controllerBytes (raw : Byte) : baseCode raw ∈ controllerBytes ↔ scBase raw = 0 := by
  rw [← baseCode_eq_iff]
  have hsplit : ∀ b ∈ controllerBytes, b = 0 ∨ 0x80 ≤ b.toNat := by decide
  constructor
  · intro hmem
    exact (hsplit _ hmem).resolve_right (baseCode_lt raw).not_ge
  · intro hzero
    rw [hzero]
    decide

/-- XLATE of a byte is the row of the byte's class. -/
theorem exec_xlate_eq_exec_decodeSc (raw : Byte) (s : State) : exec (.xlate raw) s = exec (decodeSc raw) s := by
  rw [exec_xlate]
  rcases decodeSc_cases raw with ⟨hbase, h⟩ | ⟨hbase, h⟩ | ⟨hbase, h⟩ | ⟨hbase, h⟩ | ⟨hmod, hrel, h⟩ |
    ⟨hmod, hrel, hzero, h⟩ | ⟨hmod, hrel, hzero, h⟩ <;> rw [h]
  · rw [xlateByte_leftCtrl ((baseCode_eq_iff raw 0x1d).mpr hbase)]
    rfl
  · rw [xlateByte_leftShift ((baseCode_eq_iff raw 0x2a).mpr hbase)]
    rfl
  · rw [xlateByte_rightShift ((baseCode_eq_iff raw 0x36).mpr hbase)]
    rfl
  · rw [xlateByte_leftAlt ((baseCode_eq_iff raw 0x38).mpr hbase)]
    rfl
  · rw [xlateByte_other (mt (baseCode_mem_modifierBases raw).mp hmod), if_pos (.inl hrel)]
    rfl
  · rw [xlateByte_other (mt (baseCode_mem_modifierBases raw).mp hmod),
      if_pos (.inr ((baseCode_mem_controllerBytes raw).mpr hzero))]
    rfl
  · have hkey : ¬ (scRelease raw = true ∨ baseCode raw ∈ controllerBytes) := by
      rw [hrel, baseCode_mem_controllerBytes, not_or]
      exact ⟨Bool.false_ne_true, hzero⟩
    rw [xlateByte_other (mt (baseCode_mem_modifierBases raw).mp hmod), if_neg hkey, baseCode_eq_setWidth_scBase]
    rfl

/-- Settles O32: format SC decodes every byte to its class, and `exec_xlate_eq_exec_decodeSc` compares the two. -/
theorem xlateIsTheRowOfItsClass : Obligations.XlateIsTheRowOfItsClass := by
  unfold Obligations.XlateIsTheRowOfItsClass
  intro raw s i h
  cases h
  exact exec_xlate_eq_exec_decodeSc raw s

/-- Settles O27: the class rows by their own next states, and XLATE of their bytes by O32. -/
theorem modifierBytesWriteOneLatch : Obligations.ModifierBytesWriteOneLatch := by
  unfold Obligations.ModifierBytesWriteOneLatch
  intro s r
  refine ⟨?_, ?_, ?_, ?_⟩ <;> rintro i (rfl | rfl)
  · exact xlateIsTheRowOfItsClass _ s (.scLctrl r) (by cases r <;> rfl)
  · rfl
  · exact xlateIsTheRowOfItsClass _ s (.scLshift r) (by cases r <;> rfl)
  · rfl
  · exact xlateIsTheRowOfItsClass _ s (.scRshift r) (by cases r <;> rfl)
  · rfl
  · exact xlateIsTheRowOfItsClass _ s (.scLalt r) (by cases r <;> rfl)
  · rfl

/-- Settles O26: each of the two bytes writes its own shift latch. -/
theorem shiftLatchesAreDeterminedByWrites : Obligations.ShiftLatchesAreDeterminedByWrites := by
  unfold Obligations.ShiftLatchesAreDeterminedByWrites
  intro s t t' ht ht'
  obtain ⟨-, hlshift, -, -⟩ := modifierBytesWriteOneLatch s false
  cases (hlshift (.xlate 0x2a) (.inl rfl)).symm.trans ht
  obtain ⟨-, -, hrshift, -⟩ := modifierBytesWriteOneLatch { s with
    latches := { s.latches with leftShift := true }, rsp := some (.char 0) } true
  cases (hrshift (.xlate 0xb6) (.inl rfl)).symm.trans ht'
  rfl

/-- Settles O28: such a byte is of class SC.BREAK, or SC.CTRLBYTE, by its value, and both rows give 0. -/
theorem releasesAndControlByteGiveZero : Obligations.ReleasesAndControlByteGiveZero := by
  unfold Obligations.ReleasesAndControlByteGiveZero
  rintro raw s i (⟨hrelease, hother, rfl | rfl⟩ | ⟨rfl, rfl | rfl⟩)
  · obtain ⟨-, -, -, -, hbreak, -⟩ := scancodeClassesByValue raw
    exact xlateIsTheRowOfItsClass raw s _ (hbreak hrelease hother)
  · rfl
  · exact xlateIsTheRowOfItsClass 0x00 s .scCtrlbyte rfl
  · rfl

/-- Settles O31: of the eight bytes 0xaa is leftShift's release, 0x00 is SC.CTRLBYTE and the others are of class SC.BREAK. -/
theorem controllerBytesGiveZero : Obligations.ControllerBytesGiveZero := by
  unfold Obligations.ControllerBytesGiveZero
  intro raw s hmem
  rw [exec_xlate_eq_exec_decodeSc]
  simp only [List.mem_cons, List.not_mem_nil, or_false] at hmem
  rcases hmem with rfl | rfl | rfl | rfl | rfl | rfl | rfl | rfl <;> rfl

/-! ## Ordinary keys -/

/-- The digits' symbols, as the translator computes them. -/
theorem digitShift_of_mem {c sym : Byte} (h : (c, sym) ∈ shiftedDigits) : isDigit c = true ∧ digitShift c = sym := by
  simp only [shiftedDigits, List.mem_cons, List.not_mem_nil, or_false, Prod.mk.injEq] at h
  rcases h with ⟨rfl, rfl⟩ | ⟨rfl, rfl⟩ | ⟨rfl, rfl⟩ | ⟨rfl, rfl⟩ | ⟨rfl, rfl⟩ | ⟨rfl, rfl⟩ | ⟨rfl, rfl⟩ | ⟨rfl, rfl⟩ |
    ⟨rfl, rfl⟩ | ⟨rfl, rfl⟩ <;> exact ⟨rfl, rfl⟩

theorem isLower_iff (c : Byte) : isLower c = true ↔ 0x60 < c.toNat ∧ c.toNat < 0x7b := by
  rw [isLower, Bool.and_eq_true, decide_eq_true_iff, decide_eq_true_iff]

theorem isDigit_iff (c : Byte) : isDigit c = true ↔ 0x2f < c.toNat ∧ c.toNat < 0x3a := by
  rw [isDigit, Bool.and_eq_true, decide_eq_true_iff, decide_eq_true_iff]

/-- The base code of a press is the byte itself. -/
theorem setWidth_scBase_of_press {raw : Byte} (h : raw.toNat ≤ 0x7f) : (scBase raw).setWidth 8 = raw := by
  refine BitVec.eq_of_toNat_eq ?_
  rw [← baseCode_eq_setWidth_scBase, baseCode_toNat]
  omega

/-- Settles O29: XLATE of a key's byte is SC.KEY, which gives `keyChar` of the table's entry; each clause is a case of `keyChar`. -/
theorem keysGiveTheirCharacter : Obligations.KeysGiveTheirCharacter := by
  unfold Obligations.KeysGiveTheirCharacter
  intro raw s i c hlo hhi hother hi hc
  obtain ⟨-, -, -, -, -, -, hkey⟩ := scancodeClassesByValue raw
  have hexec : exec i s = .next { s with rsp := some (.char (keyChar s.latches.shift c)) } := by
    have hrow : exec (.scKey (raw.setWidth 7)) s = .next { s with rsp := some (.char (keyChar s.latches.shift c)) } := by
      rw [← hc]
      conv_rhs => rw [← setWidth_scBase_of_press hhi]
      rfl
    rcases hi with rfl | rfl
    · exact (xlateIsTheRowOfItsClass raw s _ (hkey hlo hhi hother)).trans hrow
    · exact hrow
  rw [hexec]
  refine ⟨?_, fun hshift => ?_⟩
  · rintro ⟨hleft, hright⟩
    rw [Latches.shift, hleft, hright]
    rfl
  · have hpressed : s.latches.shift = true := by simpa [Latches.shift] using hshift
    rw [hpressed]
    refine ⟨fun sym hsym => ?_, fun hlo hhi => ?_, fun hdigit hlower => ?_⟩
    · obtain ⟨hdigit, rfl⟩ := digitShift_of_mem hsym
      rw [keyChar_digit c hdigit]
    · rw [keyChar_lower c ((isLower_iff c).mpr ⟨hlo, hhi⟩)]
    · have hnd : ¬ isDigit c = true := by
        rw [isDigit_iff]
        omega
      have hnl : ¬ isLower c = true := by
        rw [isLower_iff]
        omega
      rw [keyChar_other true c (Bool.eq_false_iff.mpr hnd) (Bool.eq_false_iff.mpr hnl)]

/-- A modifier byte does not read the table. -/
theorem xlateByte_modifier_map {raw : Byte} (h : baseCode raw ∈ modifierBases) (m m' : Table) (l : Latches) :
    xlateByte raw m l = xlateByte raw m' l := by
  rcases mem_modifierBases.mp h with h | h | h | h
  · rw [xlateByte_leftCtrl h, xlateByte_leftCtrl h]
  · rw [xlateByte_leftShift h, xlateByte_leftShift h]
  · rw [xlateByte_rightShift h, xlateByte_rightShift h]
  · rw [xlateByte_leftAlt h, xlateByte_leftAlt h]

/-- Settles O33: a byte that reads the table is a press outside the modifiers and 0x00, and its entry is one the tables share. -/
theorem xlateReadsOnlyKeyEntries : Obligations.XlateReadsOnlyKeyEntries := by
  unfold Obligations.XlateReadsOnlyKeyEntries
  intro raw s t m hagree h
  have hsame : xlateByte raw m s.latches = xlateByte raw s.map s.latches := by
    by_cases hmod : baseCode raw ∈ modifierBases
    · exact xlateByte_modifier_map hmod m s.map s.latches
    · rw [xlateByte_other hmod, xlateByte_other hmod]
      split
      · rfl
      next hkey =>
        have hzero : baseCode raw ≠ 0 := fun hzero => hkey (.inr (by rw [hzero]; decide))
        rw [hagree (baseCode raw) (by bv_omega) (Nat.le_of_lt_succ (baseCode_lt raw)) hmod]
  rw [exec_xlate] at h ⊢
  cases h
  simp only [hsame]

end Sys2Proof.Machine
end

section
/-! What a step takes up and what it refuses (10_state.md R14; 60_exceptions.md R153, R162; 00_scope.md R2). -/

namespace Sys2Proof.Machine

/-- Settles O37: every arm of `exec` is a next state. -/
theorem everyInstructionCompletes : Obligations.EveryInstructionCompletes := by
  unfold Obligations.EveryInstructionCompletes
  intro i s
  cases i <;> exact ⟨_, rfl⟩

theorem step_of_call {s : State} {bytes : List Byte} {rest : List Input} (hslot : s.slot = none)
    (hinbox : s.inbox = .call bytes :: rest) : step s = accept exec .req bytes { s with inbox := rest, rsp := none } := by
  rw [step_of_no_slot s hslot, stepInput, hinbox, State.consume, hinbox]
  rfl

theorem step_of_issue {s : State} {bytes : List Byte} {rest : List Input} (hslot : s.slot = none)
    (hinbox : s.inbox = .issue bytes :: rest) : step s = accept start .req bytes { s with inbox := rest, rsp := none } := by
  rw [step_of_no_slot s hslot, stepInput, hinbox, State.consume, hinbox]
  rfl

theorem decode_of_decodeTableWord {nbits w : Nat} {i : Instr} (h : decodeTableWord nbits w = some i) :
    decode (tableFormat nbits w) (tableBytes nbits w) = .ok i := by
  unfold decodeTableWord at h
  split at h
  · cases h
    assumption
  · cases h

/-- Settles O40: a call and a placed row are taken up by `accept`, and a fetched word is one of the two. -/
theorem stepRunsTheDecodedInstruction : Obligations.StepRunsTheDecodedInstruction := by
  unfold Obligations.StepRunsTheDecodedInstruction
  have ofCall : ∀ (s : State) (bytes : List Byte) (rest : List Input) (i : Instr), s.slot = none → s.inFlight = none →
      s.inbox = .call bytes :: rest → decode .req bytes = .ok i → step s = exec i { s with inbox := rest, rsp := none } :=
    fun s bytes rest i hslot hfl hinbox hd => (step_of_call hslot hinbox).trans (accept_ok exec .req bytes _ i hfl hd)
  have ofSlot : ∀ (s : State) (f : Format) (bytes : List Byte) (i : Instr), s.slot = some ⟨false, f, bytes⟩ →
      s.inFlight = none → decode f bytes = .ok i → step s = exec i { s with slot := none, rsp := none } :=
    fun s f bytes i hslot hfl hd => (step_of_slot s _ hslot).trans (accept_ok exec f bytes s.takeSlot i hfl hd)
  refine ⟨ofCall, ofSlot, fun s nbits w i h => ?_⟩
  have hd := decode_of_decodeTableWord h
  rw [State.withFetchWord]
  cases hf : tableFormat nbits w <;> rw [hf] at hd
  case req => exact ofCall _ (tableBytes nbits w) s.inbox i rfl rfl rfl hd
  case sc => exact ofSlot _ .sc (tableBytes nbits w) i rfl rfl hd
  case cmd => exact ofSlot _ .cmd (tableBytes nbits w) i rfl rfl hd

theorem hostOperation_wf {i : Instr} (h : hostOperation i) : i.wf = true ∧ i.format = .req := by
  rcases h with ⟨u, rfl⟩ | ⟨raw, rfl⟩ | ⟨e, rfl⟩ | rfl <;> exact ⟨rfl, rfl⟩

/-- Every operation of the host is called by its own encoding. -/
theorem step_of_call_encode {s : State} {i : Instr} {rest : List Input} (hi : hostOperation i) (hslot : s.slot = none)
    (hfl : s.inFlight = none) (hinbox : s.inbox = .call (encode i) :: rest) :
    step s = exec i { s with inbox := rest, rsp := none } := by
  obtain ⟨hwf, hformat⟩ := hostOperation_wf hi
  have hd := decodeEncodeRoundTrip i hwf
  rw [hformat] at hd
  exact stepRunsTheDecodedInstruction.1 s (encode i) rest i hslot hfl hinbox hd

/-- Settles O41: a request decodes to one of the four, and each of the four has its encoding. -/
theorem hostIssuesExactlyTheFourOperations : Obligations.HostIssuesExactlyTheFourOperations := by
  unfold Obligations.HostIssuesExactlyTheFourOperations
  exact ⟨fun s i hslot h => hostOperation_of_nextInstr hslot h,
    fun i hi => ⟨encode i, fun s rest hslot hfl hinbox => step_of_call_encode hi hslot hfl hinbox⟩⟩

/-- Settles O44: whatever is to be taken up, `accept` refuses it while an operation is in flight. -/
theorem overlappingRequestIsRefused : Obligations.OverlappingRequestIsRefused := by
  unfold Obligations.OverlappingRequestIsRefused
  rintro s p hfl (⟨w, hslot⟩ | ⟨hslot, bytes, rest, hinbox | hinbox⟩)
  · exact (step_of_slot s w hslot).trans (accept_busy _ w.format w.bytes s.takeSlot p hfl)
  · exact (step_of_call hslot hinbox).trans (accept_busy exec .req bytes _ p hfl)
  · exact (step_of_issue hslot hinbox).trans (accept_busy start .req bytes _ p hfl)

/-- Settles O45: whatever is to be taken up, `accept` passes the decoder's reason on. -/
theorem undecodableBytesAreRefused : Obligations.UndecodableBytesAreRefused := by
  unfold Obligations.UndecodableBytesAreRefused
  rintro s f bytes e hfl (⟨events, hslot⟩ | ⟨hslot, rfl, rest, hinbox | hinbox⟩) hd
  · exact (step_of_slot s _ hslot).trans (accept_error _ f bytes s.takeSlot e hfl hd)
  · exact (step_of_call hslot hinbox).trans (accept_error exec .req bytes _ e hfl hd)
  · exact (step_of_issue hslot hinbox).trans (accept_error start .req bytes _ e hfl hd)

/-- Settles O46: without a request the step is `advance`, and an idle block does not move. -/
theorem idleBlockWaits : Obligations.IdleBlockWaits := by
  unfold Obligations.IdleBlockWaits
  rintro s hslot hfl (hinbox | ⟨rest, hinbox⟩) <;>
    rw [step_of_no_slot s hslot, stepInput, hinbox] <;>
    simp only [advance_idle s.consume hfl] <;>
    rw [State.consume, hinbox]

end Sys2Proof.Machine
end

section
/-! The latch state machine (43_translator.md R126): four bytes set the latches, whatever they held. -/

namespace Sys2Proof.Machine

theorem baseCode_scByte (r : Bool) (base : BitVec 7) : baseCode (scByte r base) = base.setWidth 8 :=
  (baseCode_eq_iff _ base).mpr (scBase_scByte r base)

/-- The four bytes that set the latches to `l`. -/
def latchBytes (l : Latches) : List Byte :=
  [scByte (!l.leftCtrl) 0x1d, scByte (!l.leftShift) 0x2a, scByte (!l.rightShift) 0x36, scByte (!l.leftAlt) 0x38]

/-- The latches after some bytes are translated with the table `map`. -/
def latchesAfter (map : Table) (l : Latches) (raws : List Byte) : Latches :=
  raws.foldl (fun l raw => (xlateByte raw map l).2) l

theorem latchesAfter_latchBytes (map : Table) (l l' : Latches) : latchesAfter map l' (latchBytes l) = l := by
  simp only [latchesAfter, latchBytes, List.foldl_cons, List.foldl_nil]
  rw [xlateByte_leftCtrl (baseCode_scByte _ 0x1d), xlateByte_leftShift (baseCode_scByte _ 0x2a),
    xlateByte_rightShift (baseCode_scByte _ 0x36), xlateByte_leftAlt (baseCode_scByte _ 0x38)]
  simp only [scRelease_scByte, Bool.not_not]

/-- An idle block whose inbox calls XLATE of some bytes translates them one after another. -/
theorem run_xlates (raws : List Byte) (s : State) (hslot : s.slot = none) (hfl : s.inFlight = none)
    (hinbox : s.inbox = raws.map (fun raw => Input.call (encode (.xlate raw)))) :
    ∃ t, Host.Core.run core raws.length s = .next t ∧ t.latches = latchesAfter s.map s.latches raws := by
  induction raws generalizing s with
  | nil => exact ⟨s, rfl, rfl⟩
  | cons raw raws ih =>
    have hstep := step_of_call_encode (.inr (.inl ⟨raw, rfl⟩)) hslot hfl hinbox
    rw [exec_xlate] at hstep
    obtain ⟨t, hrun, hlatches⟩ := ih { s with
      latches := (xlateByte raw s.map s.latches).2
      inbox := raws.map fun raw => Input.call (encode (.xlate raw))
      rsp := some (.char (xlateByte raw s.map s.latches).1) } hslot hfl rfl
    exact ⟨t, (core_run_next raws.length s _ hstep).trans hrun, hlatches⟩

/-- Settles O34: `latchBytes` of the latches wanted, translated one after another. -/
theorem allLatchStatesAreReachable : Obligations.AllLatchStatesAreReachable := by
  unfold Obligations.AllLatchStatesAreReachable
  refine fun l => ⟨latchBytes l, fun s hslot hfl _ hinbox => ?_⟩
  obtain ⟨t, hrun, hlatches⟩ := run_xlates (latchBytes l) s hslot hfl hinbox
  exact ⟨t, hrun, hlatches.trans (latchesAfter_latchBytes s.map l s.latches)⟩

end Sys2Proof.Machine
end
